-- ==== Sys2Proof/Word.lean ====
section
/-! DEFINITION. The widths of values: a register or command word (R21, R75), a byte (R30 to R32), a pixel (R29, R86). -/

namespace Sys2Proof

/-- A register of `REG`, and a command word: 16 bits (R21, R75). -/
abbrev Word := BitVec 16

/-- An element of `PB`, `OUT` or `PV`: 8 bits (R30, R31, R32). -/
abbrev Byte := BitVec 8

/-- An element of `PIX`: 24 bits, three 8-bit channels (R29, R86). -/
abbrev Pixel := BitVec 24

end Sys2Proof
end

