-- ==== Sys2Proof/Syntax.lean ====
section
/-! DEFINITION. The commands: one constructor for each row of the opcode table (R77). -/

namespace Sys2Proof

/-- The seven commands of R77. An illegal word is no command: it is what the decoder rejects (R78, log 16). -/
inductive Instr where
  /-- `NOP` (R153). -/
  | nop
  /-- `PACK` (R119). -/
  | pack
  /-- `ENCODE` (R131). -/
  | encode
  /-- `UNPACK` (R142). -/
  | unpack
  /-- `CSCLR` (R108). -/
  | csclr
  /-- `CSADD #imm8` (R109); `imm8` is an unsigned byte (R76). -/
  | csadd (imm8 : Byte)
  /-- `CONVERT` (R155). -/
  | convert
deriving DecidableEq, Repr

end Sys2Proof
end

