-- ==== Sys2Proof/Decode.lean ====
section
/-! DEFINITION. Decoding of command words (R75 to R80), the encoder, and the opcode table as rows (R77). -/

namespace Sys2Proof

/-- Why a word is no command (R78). Raised by `decode`; the write of such a word to `CMD` raises `IllegalCommand`. -/
inductive DecodeError where
  /-- R78 (a): the opcode is in 0x07 .. 0xFF. -/
  | unassignedOpcode (op : Byte)
  /-- R78 (b): a format N opcode with a low byte that is not zero. -/
  | nonzeroOperand (op arg : Byte)
deriving DecidableEq, Repr

/-- What a word decodes as: a command, or a rejection by name. -/
inductive Decoded where
  | command (i : Instr)
  | illegal (e : DecodeError)
deriving DecidableEq, Repr

/-- `op = w[15:8]` (R75). -/
def opcodeOf (w : Word) : Byte := w.extractLsb' 8 8

/-- `arg = w[7:0]`, which is also `imm8` (R75, R76). -/
def argOf (w : Word) : Byte := w.extractLsb' 0 8

/-- The command of a format N opcode, `none` where the opcode is not assigned to one (R77). -/
def formatN (op : Byte) : Option Instr :=
  if op = 0x00#8 then some .nop
  else if op = 0x01#8 then some .pack
  else if op = 0x02#8 then some .encode
  else if op = 0x03#8 then some .unpack
  else if op = 0x04#8 then some .csclr
  else if op = 0x06#8 then some .convert
  else none

/-- `decode(w)` of R79, with R78's two reasons told apart: an opcode nobody assigned is `unassignedOpcode` whatever its
low byte, as R78 (a) says. -/
def decode (w : Word) : Decoded :=
  if opcodeOf w = 0x05#8 then .command (.csadd (argOf w))
  else match formatN (opcodeOf w) with
    | none => .illegal (.unassignedOpcode (opcodeOf w))
    | some i =>
      if argOf w = 0x00#8 then .command i
      else .illegal (.nonzeroOperand (opcodeOf w) (argOf w))

/-- The word of a command, from the encoding column of R77. -/
def encode : Instr → Word
  | .nop => 0x0000#16
  | .pack => 0x0100#16
  | .encode => 0x0200#16
  | .unpack => 0x0300#16
  | .csclr => 0x0400#16
  | .csadd imm8 => 0x05#8 ++ imm8
  | .convert => 0x0600#16

/-- The decoder on an instruction given as the opcode table numbers its bits. A command is exactly one 16-bit word
(R80), so bits above bit 15 belong to no command and a value that has one is refused (log 13). -/
def decodeTableWord (nbits w : Nat) : Option Instr :=
  let v := w % 2 ^ nbits
  if v < 65536 then
    match decode (BitVec.ofNat 16 v) with
    | .command i => some i
    | .illegal _ => none
  else none

/-- One row of the opcode table: a word `w` is of the row when `w AND mask` is `bits` (R77, "match / mask"). -/
structure OpcodeRow where
  mnemonic : String
  bits     : Word
  mask     : Word
deriving DecidableEq, Repr

/-- The rows of R77, in its order. -/
def opcodeTable : List OpcodeRow :=
  [ ⟨"NOP", 0x0000#16, 0xFFFF#16⟩,
    ⟨"PACK", 0x0100#16, 0xFFFF#16⟩,
    ⟨"ENCODE", 0x0200#16, 0xFFFF#16⟩,
    ⟨"UNPACK", 0x0300#16, 0xFFFF#16⟩,
    ⟨"CSCLR", 0x0400#16, 0xFFFF#16⟩,
    ⟨"CSADD", 0x0500#16, 0xFF00#16⟩,
    ⟨"CONVERT", 0x0600#16, 0xFFFF#16⟩ ]

/-- The mnemonic of a command (R77). -/
def mnemonicOf : Instr → String
  | .nop => "NOP"
  | .pack => "PACK"
  | .encode => "ENCODE"
  | .unpack => "UNPACK"
  | .csclr => "CSCLR"
  | .csadd _ => "CSADD"
  | .convert => "CONVERT"

/-- `w` is one of the words of the row (R77). -/
def OpcodeRow.matchesWord (row : OpcodeRow) (w : Word) : Bool := (w &&& row.mask) == row.bits

end Sys2Proof
end

