-- ==== Sys2Proof/Config.lean ====
section
/-! DEFINITION. The device profile (R7): the constants of this hardware; the names of its memories; the free values of
unwritten memory (R38). -/

namespace Sys2Proof

/-- The four element memories (R29 to R32, R50). -/
inductive MemSpace where
  | pix
  | pb
  | out
  | pv
deriving DecidableEq, Repr

namespace Config

/-- A binarisation predicate (R7 `ON_PRED`, R115: "an explicit binarization predicate parameter"), as data. -/
inductive OnPred where
  /-- On is every pixel but `off`. -/
  | notPixel (off : Pixel)
deriving DecidableEq, Repr

/-- The pixels a predicate calls on. -/
def OnPred.holds : OnPred → Pixel → Bool
  | .notPixel off, p => p != off

/-- The parameters of the device profile as one record, one field for each row of the table of R7: "a model should carry
these as fields of a configuration record whose only admitted value is the one in the table". -/
structure Profile where
  /-- `W`. -/
  width       : Nat
  /-- `H`. -/
  height      : Nat
  /-- `BLOCK_ROWS`. -/
  blockRows   : Nat
  /-- `NBLOCKS`. -/
  blocks      : Nat
  /-- `PB_LEN`. -/
  packedLen   : Nat
  /-- `CHUNK`. -/
  chunk       : Nat
  /-- `NREC`. -/
  records     : Nat
  /-- `ADDR_BITS`; the width of the type `Word` of `BASE`. -/
  addrBits    : Nat
  /-- `REC_TYPE`. -/
  recordType  : Byte
  /-- `BASE_DEFAULT`. -/
  baseDefault : Word
  /-- `LINE_LEN`. -/
  lineLen     : Nat
  /-- `CH_BITS`; the width of the type `Byte` of a channel. -/
  channelBits : Nat
  /-- `NCH`; with `CH_BITS` the width of the type `Pixel`. -/
  channels    : Nat
  /-- `PV_ON`. -/
  previewOn   : Byte
  /-- `PV_OFF`. -/
  previewOff  : Byte
  /-- `ON_PRED`. -/
  onPred      : OnPred
deriving DecidableEq, Repr

/-- The one admitted profile (R7). Every definition of the machine that depends on a parameter reads it from here; the
names below are what they read it by. -/
def device : Profile where
  width       := 128
  height      := 64
  blockRows   := 8
  blocks      := 8
  packedLen   := 1024
  chunk       := 16
  records     := 64
  addrBits    := 16
  recordType  := 0x00#8
  baseDefault := 0x7140#16
  lineLen     := 43
  channelBits := 8
  channels    := 3
  previewOn   := 0x00#8
  previewOff  := 0xFF#8
  onPred      := .notPixel 0xFFFFFF#24

/-- Columns of the grid (R7 `W`). -/
def width : Nat := device.width
/-- Rows of the grid (R7 `H`). -/
def height : Nat := device.height
/-- Rows of a block, bits of a packed byte (R7 `BLOCK_ROWS`). -/
def blockRows : Nat := device.blockRows
/-- Blocks of the grid (R7 `NBLOCKS`). -/
def blocks : Nat := device.blocks
/-- Bytes of the packed buffer (R7 `PB_LEN`). -/
def packedLen : Nat := device.packedLen
/-- Data bytes of a record (R7 `CHUNK`). -/
def chunk : Nat := device.chunk
/-- Records of a buffer (R7 `NREC`). -/
def records : Nat := device.records
/-- Characters of a text line (R7 `LINE_LEN`, 90_conflicts.md C2). -/
def lineLen : Nat := device.lineLen
/-- Elements of `PIX` and of `PV` (R29, R32). -/
def gridLen : Nat := device.width * device.height
/-- Elements of `OUT` (R31, R50). -/
def outLen : Nat := device.records * device.lineLen
/-- Record-type byte (R7 `REC_TYPE`). -/
def recordType : Byte := device.recordType
/-- Byte-count byte of every record: `CHUNK` as a byte (R89). -/
def byteCount : Byte := BitVec.ofNat 8 device.chunk
/-- Bytes of a record before the checksum: byte count, two of the address, type, and the chunk (R89). -/
def contentLen : Nat := 4 + device.chunk
/-- The largest base whose last record's address fits in `ADDR_BITS` bits (R127). -/
def lastBase : Nat := 2 ^ device.addrBits - 1 - device.chunk * (device.records - 1)
/-- Reset value of `BASE` (R7 `BASE_DEFAULT`, R24). -/
def baseDefault : Word := device.baseDefault
/-- Reset value of `DIMW` (R25). -/
def dimwDefault : Word := 0x0080#16
/-- Reset value of `DIMH` (R26). -/
def dimhDefault : Word := 0x0040#16
/-- Preview value of a set bit (R7 `PV_ON`). -/
def previewOn : Byte := device.previewOn
/-- Preview value of a clear bit (R7 `PV_OFF`). -/
def previewOff : Byte := device.previewOff

/-- FREE VALUE. The value of element `idx` of memory `sp`, of width `w`, in the `n`-th unspecified contents (R38: "each
element holds some value of its width, fixed until it is next written ... and nothing else is known"). No body: nothing
can prove a value of it. DESIGN CHOICE of form (log 1), safe. -/
opaque freeElement (w : Nat) (sp : MemSpace) (n idx : Nat) : BitVec w

end Config
end Sys2Proof
end

