-- ==== Sys2Proof/Machine/State.lean ====
section
/-! DEFINITION. The state of the core as plain data (10_state.md), the moves of the host (R196), the reasons a step can
stop, and the state after reset (R38). -/

namespace Sys2Proof.Machine

/-- What the elements of a memory that no cell lists hold. -/
inductive Background (w : Nat) where
  /-- Unspecified contents, the `n`-th of memory `sp` (R38): each element is a free value, `Config.freeElement`. -/
  | unspecified (sp : MemSpace) (n : Nat)
  /-- Known contents: every element holds `v`. No reset yields it; it is how a state whose memory contents are known
  is written down, R38's "universally quantified inputs of the initial state" among them (log 2). -/
  | filled (v : BitVec w)
deriving DecidableEq, Repr

/-- One memory, element width `w`. `cells` lists elements by linear index (R51), strictly rising; an index it does not
list reads as the background says (`Memory.unlisted`, Ops.lean). -/
structure Memory (w : Nat) where
  background : Background w
  cells      : List (Nat × BitVec w)
deriving DecidableEq, Repr

/-- The memory `sp` with its `n`-th unspecified contents, nothing listed (R38). -/
def Memory.fresh (w : Nat) (sp : MemSpace) (n : Nat) : Memory w := ⟨.unspecified sp n, []⟩

/-- The fields of `REG.STATUS` (R23). The reserved bits have no storage: they read 0 and nothing writes them (log 6).
The 16-bit value is `Status.word` (Flags.lean). -/
structure Status where
  /-- Bit 0: a command is executing. -/
  busy  : Bool
  /-- Bit 1: a command has completed since reset. -/
  done  : Bool
  /-- Bits 7:4: result code of the most recently completed command (R166). -/
  err   : BitVec 4
  /-- Bit 8, sticky. -/
  edim  : Bool
  /-- Bit 9, sticky. -/
  eaddr : Bool
  /-- Bit 10, sticky. -/
  eill  : Bool
deriving DecidableEq, Repr

/-- Where the sequencer is (R156): idle, or at a phase of the accepted command. `conv` says that the phase belongs to
`CONVERT`, so that the next component follows it (R155). The list of phases is the model's reading of R120, R132, R143
and R155 (log 10). -/
inductive Phase where
  /-- No command is executing. -/
  | idle
  /-- The one elementary step of `NOP`. -/
  | nop
  /-- The one elementary step of `CSCLR`. -/
  | csclr
  /-- The one elementary step of `CSADD`. -/
  | csadd (imm8 : Byte)
  /-- The one elementary step of an illegal word (R154). -/
  | illegal
  /-- The dimension check of `PACK` (R120 phase 0) or `CONVERT` (R155 first check). -/
  | dims (conv : Bool)
  /-- The address check of `ENCODE` (R132 phase 0) or `CONVERT` (R155 second check). -/
  | addr (conv : Bool)
  /-- R120 phase 1: `SEQ.J` clears `PB`. -/
  | clear (conv : Bool)
  /-- R120 phase 2: the scan of `PIX`. -/
  | scan (conv : Bool)
  /-- R132: load `ADDR17`, clear `RSUM`, write the `:` of record `SEQ.I`. -/
  | load (conv : Bool)
  /-- R132: byte `SEQ.K` of record `SEQ.I`. -/
  | emit (conv : Bool)
  /-- R143: the scan that writes `PV`; the last phase of `UNPACK` and of `CONVERT`. -/
  | rebuild (conv : Bool)
deriving DecidableEq, Repr

/-- The sequencer: its phase and its position counters, widths and names of R36. -/
@[ext]
structure Seq where
  phase  : Phase
  /-- `SEQ.B`, block index. -/
  b      : BitVec 3
  /-- `SEQ.C`, column. -/
  c      : BitVec 7
  /-- `SEQ.ROW`, row index of the innermost loop. -/
  row    : BitVec 3
  /-- `SEQ.J`, index of the byte being cleared. -/
  j      : BitVec 10
  /-- `SEQ.I`, chunk index. -/
  i      : BitVec 6
  /-- `SEQ.K`, index of the byte of the record being serialised. -/
  k      : BitVec 5
  /-- `ADDR17`, the address counter. -/
  addr17 : BitVec 17
  /-- `RSUM`, running sum of the record's content bytes. -/
  rsum   : Byte
deriving DecidableEq, Repr

/-- The sequencer at rest: every counter at its idle value 0 (R36). -/
def Seq.idle : Seq := ⟨.idle, 0#3, 0#7, 0#3, 0#10, 0#6, 0#5, 0#17, 0x00#8⟩

/-- The moves of the host (R196). Register numbers and element indices are as wide as the ports' wires (R21, R51). -/
inductive HostMove where
  /-- Assert and release the reset input (R190). -/
  | reset
  /-- Read register `n`. -/
  | readReg (n : BitVec 3)
  /-- Write register `n`; with `n = 0` this issues the command `v` and waits for its completion (R22, R81). -/
  | writeReg (n : BitVec 3) (v : Word)
  | readPix (c : BitVec 7) (r : BitVec 6)
  | writePix (c : BitVec 7) (r : BitVec 6) (v : Pixel)
  | readPb (j : BitVec 10)
  | writePb (j : BitVec 10) (v : Byte)
  | readOut (i k : BitVec 6)
  | writeOut (i k : BitVec 6) (v : Byte)
  | readPv (c : BitVec 7) (r : BitVec 6)
  | writePv (c : BitVec 7) (r : BitVec 6) (v : Byte)
deriving DecidableEq, Repr

/-- What happens next: the list of these in State says who moves (log 3). -/
inductive Event where
  /-- A move of the host, a command among them taken whole (R150). -/
  | move (m : HostMove)
  /-- The host writes `w` to `CMD` and does not wait: the command is only accepted (R149), and then executes in
  elementary steps (R120, R132, R143; log 5). -/
  | start (w : Word)
  /-- The core takes one elementary step (log 5). -/
  | tick
deriving DecidableEq, Repr

/-- The value a host read returned (log 4). -/
inductive Answer where
  | reg (v : Word)
  | pixel (v : Pixel)
  | byte (v : Byte)
deriving DecidableEq, Repr

/-- A fault stops the machine. THE SPEC GIVES NONE, so the type has no constructor: every word in every state has a
successor (R150), no access can fault (R61, R175), and the errors of commands are next states (R165, R170). -/
inductive Fault where
deriving DecidableEq, Repr

/-- Why a step has no meaning. -/
inductive Refusal where
  /-- Raised by a refused arm of `exec` (no arm is one now). Safe: nothing can be proved of such a command. -/
  | notModelled (mnemonic : String)
  /-- Raised by `step` when the host touches the core while a command runs, other than to read `STATUS` or to reset
  (R197: "A model refuses such a program: it gives it no meaning"). Safe (log 8). -/
  | accessWhileBusy
deriving DecidableEq, Repr

/-- The state: what 10_state.md lists, and three fields of the model's own (`fresh`, `events`, `answers`). -/
@[ext]
structure State where
  /-- `REG.STATUS` (R23). -/
  status  : Status
  /-- `REG.BASE` (R24). -/
  base    : Word
  /-- `REG.DIMW` (R25). -/
  dimw    : Word
  /-- `REG.DIMH` (R26). -/
  dimh    : Word
  /-- `CSACC` (R35), read through `REG.CSUM` (R27). -/
  csacc   : Byte
  /-- `PIX` (R29). -/
  pix     : Memory 24
  /-- `PB` (R30). -/
  pb      : Memory 8
  /-- `OUT` (R31). -/
  out     : Memory 8
  /-- `PV` (R32). -/
  pv      : Memory 8
  /-- The sequencer (R36). -/
  seq     : Seq
  /-- The model's own: the number of the next unspecified contents (log 1). -/
  fresh   : Nat
  /-- The model's own: what is still to happen, next first (log 3). -/
  events  : List Event
  /-- The model's own: what the host's reads have returned, newest first (log 4). -/
  answers : List Answer
deriving DecidableEq, Repr

/-- `STATUS` after reset: every field 0 (R38). -/
def Status.reset : Status := ⟨false, false, 0#4, false, false, false⟩

/-- The machine right after reset (R38). The memories are unspecified; the model's own fields are at the values log 1,
log 3 and log 4 name. -/
def State.reset : State where
  status  := Status.reset
  base    := Config.baseDefault
  dimw    := Config.dimwDefault
  dimh    := Config.dimhDefault
  csacc   := 0x00#8
  pix     := Memory.fresh 24 .pix 0
  pb      := Memory.fresh 8 .pb 0
  out     := Memory.fresh 8 .out 0
  pv      := Memory.fresh 8 .pv 0
  seq     := Seq.idle
  fresh   := 1
  events  := []
  answers := []

end Sys2Proof.Machine
end

