-- ==== Sys2Proof/Machine/Flags.lean ====
section
/-! DEFINITION. `REG.STATUS`: its 16-bit value and what completion and a raise make of its fields (R23, R151, R170). -/

namespace Sys2Proof.Machine

/-- The error kinds the core raises (R166). Code 3 is never raised by the core (R168), so it is none of them. -/
inductive ErrorKind where
  | invalidDimensions
  | addressOverflow
  | illegalCommand
deriving DecidableEq, Repr

/-- The code of an error kind in `STATUS.ERR` (R166). -/
def ErrorKind.code : ErrorKind → BitVec 4
  | .invalidDimensions => 1#4
  | .addressOverflow => 2#4
  | .illegalCommand => 4#4

/-- The 16 bits of `REG.STATUS` in the layout of R23; the reserved bits read 0. -/
def Status.word (st : Status) : Word :=
  0#5 ++ BitVec.ofBool st.eill ++ BitVec.ofBool st.eaddr ++ BitVec.ofBool st.edim ++ st.err ++ 0#2
    ++ BitVec.ofBool st.done ++ BitVec.ofBool st.busy

/-- Acceptance of a command sets `BUSY` and nothing else (R149, R23). -/
def Status.accept (st : Status) : Status := { st with busy := true }

/-- Completion without error: `ERR` is 0, `DONE` is set, `BUSY` is clear, the sticky bits stay (R151, R149). -/
def Status.complete (st : Status) : Status := { st with busy := false, done := true, err := 0#4 }

/-- Completion by a raise: `ERR` takes the code, the sticky bit of the kind is set, `DONE` is set, `BUSY` is clear
(R170). -/
def Status.raise (st : Status) (e : ErrorKind) : Status where
  busy  := false
  done  := true
  err   := e.code
  edim  := st.edim || decide (e = .invalidDimensions)
  eaddr := st.eaddr || decide (e = .addressOverflow)
  eill  := st.eill || decide (e = .illegalCommand)

end Sys2Proof.Machine
end

