-- ==== Sys2Proof/Machine/Ops.lean ====
section
/-! DEFINITION. The named operations over memories and registers (R10, R50, R59), and the end of a command: completion
(R151) and error entry (R170). -/

namespace Sys2Proof.Machine

/-! Memory -/

/-- What an element that no cell lists reads as: the ONE definition of it (R38, log 1, log 2). -/
def Memory.unlisted {w : Nat} (m : Memory w) (a : Nat) : BitVec w :=
  match m.background with
  | .unspecified sp n => Config.freeElement w sp n a
  | .filled v => v

/-- The listed value of index `a`, if it is listed. -/
def cellAt {w : Nat} : List (Nat × BitVec w) → Nat → Option (BitVec w)
  | [], _ => none
  | (k, v) :: rest, a => if k = a then some v else cellAt rest a

/-- `MemRead(SPACE, idx)` on one memory, by linear index (R10, R51). -/
def Memory.read {w : Nat} (m : Memory w) (a : Nat) : BitVec w :=
  match cellAt m.cells a with
  | some v => v
  | none => m.unlisted a

/-- Whether a value is listed when it is stored: a value that the background is known to hold is not. An unspecified
element has no known value, so any value stored over it is listed (log 2). -/
def Background.lists {w : Nat} (bg : Background w) (v : BitVec w) : Bool :=
  match bg with
  | .unspecified _ _ => true
  | .filled u => v != u

/-- `cells` with index `a` holding `v`, indices kept rising. -/
def insertCell {w : Nat} : List (Nat × BitVec w) → Nat → BitVec w → List (Nat × BitVec w)
  | [], a, v => [(a, v)]
  | (k, u) :: rest, a, v =>
    if a < k then (a, v) :: (k, u) :: rest
    else if a = k then (a, v) :: rest
    else (k, u) :: insertCell rest a v

/-- `cells` without index `a`. -/
def eraseCell {w : Nat} (cells : List (Nat × BitVec w)) (a : Nat) : List (Nat × BitVec w) :=
  cells.filter fun x => x.1 != a

/-- `MemWrite(SPACE, idx, v)` on one memory, by linear index (R10). It keeps the canonical form `Memory.wf`. -/
def Memory.write {w : Nat} (m : Memory w) (a : Nat) (v : BitVec w) : Memory w :=
  if m.background.lists v then { m with cells := insertCell m.cells a v }
  else { m with cells := eraseCell m.cells a }

/-- Every one of the `n` elements written: element `a` takes `f a`. The write of a whole memory by a transform (R119,
R131, R142 "Effect, taken whole"); nothing of the old contents survives. -/
def Memory.writeAll {w : Nat} (m : Memory w) (n : Nat) (f : Nat → BitVec w) : Memory w :=
  { m with cells := (List.range' 0 n).filterMap fun a =>
      if m.background.lists (f a) then some (a, f a) else none }

/-- The canonical form of a memory of `n` elements: indices strictly rising and below `n`, and no cell that holds what
the background is known to hold. -/
abbrev Memory.wf {w : Nat} (n : Nat) (m : Memory w) : Prop :=
  m.cells.Pairwise (fun x y => x.1 < y.1) ∧ ∀ x ∈ m.cells, x.1 < n ∧ m.background.lists x.2 = true

/-- Linear index of `(c, r)` in `PIX` and `PV` (R51). -/
def gridIndex (c r : Nat) : Nat := Config.width * r + c

/-- Linear index of `(i, k)` in `OUT` (R51). -/
def outIndex (i k : Nat) : Nat := Config.lineLen * i + k

/-- `PIX(c, r)` (R29). -/
def State.pixel (s : State) (c r : Nat) : Pixel := s.pix.read (gridIndex c r)

/-- `PB[j]` (R30). -/
def State.packed (s : State) (j : Nat) : Byte := s.pb.read j

/-- `OUT(i, k)` (R31); on the port, k in 43..63 reads 0x00 (R51). -/
def State.outChar (s : State) (i k : Nat) : Byte :=
  if k < Config.lineLen then s.out.read (outIndex i k) else 0x00#8

/-- `PV(c, r)` (R32). -/
def State.preview (s : State) (c r : Nat) : Byte := s.pv.read (gridIndex c r)

/-! The end of a command -/

/-- Completion of a command that raised nothing (R151): the completion flags, and the sequencer idle with its counters
at 0 (R36). -/
def State.complete (s : State) : State := { s with status := s.status.complete, seq := Seq.idle }

/-- Error entry, `raise E` (R170): the flags, the sequencer idle, and nothing else. There is no return beside it: "There
is no return instruction because there is no handler" (R174). -/
def State.raise (s : State) (e : ErrorKind) : State := { s with status := s.status.raise e, seq := Seq.idle }

/-! Registers -/

/-- `REG.CSUM` of an accumulator (R27): bits 7:0 are `(256 - CSACC) mod 256`, bits 15:8 are 0. -/
def csumWord (acc : Byte) : Word := BitVec.ofNat 16 ((256 - acc.toNat) % 256)

/-- A host read of register `n` (R21): `CMD` and the reserved registers read 0x0000 (R22, R28). -/
def State.readRegister (s : State) (n : BitVec 3) : Word :=
  match n.toNat with
  | 1 => s.status.word
  | 2 => s.base
  | 3 => s.dimw
  | 4 => s.dimh
  | 5 => csumWord s.csacc
  | _ => 0x0000#16

/-- A host write of a register that is not `CMD` (R21): `BASE`, `DIMW` and `DIMH` take the value, every other register
ignores it (R23, R27, R28). -/
def State.writeRegister (s : State) (n : BitVec 3) (v : Word) : State :=
  match n.toNat with
  | 2 => { s with base := v }
  | 3 => { s with dimw := v }
  | 4 => { s with dimh := v }
  | _ => s

/-- A value returned to the host (log 4). -/
def State.answer (s : State) (a : Answer) : State := { s with answers := a :: s.answers }

end Sys2Proof.Machine
end

