-- ==== Sys2Proof/Machine/Operands.lean ====
section
/-! DEFINITION. The operands of the commands (R75: all of them at fixed places) and the checks on them: the pixel and its
predicate (R86, R115), the map of bits to rows (R87), the dimension check (R118), the record address and its check
(R127). -/

namespace Sys2Proof.Machine

/-- The 24-bit element of three channels, p0 in bits 23:16, p1 in 15:8, p2 in 7:0 (R86). -/
def pixelOf (p0 p1 p2 : Byte) : Pixel := p0 ++ p1 ++ p2

/-- The binarisation predicate `ON` (R115), the parameter `ON_PRED` of R7: on is every pixel but pure white. -/
def on (p : Pixel) : Bool := Config.device.onPred.holds p

/-- `BITROW(y)`: the row offset in its block that bit `y` of a packed byte stands for. Decided value: `y` (R87,
90_conflicts.md C1, U1; log 11). -/
def bitRow (y : Nat) : Nat := y

/-- The inverse of `bitRow`: the bit that stands for row offset `o` (R87 "bit `r mod 8`"). -/
def rowBit (o : Nat) : Nat := o

/-- `PB` index of the byte for column `c` of block `b` (R60 (a)). -/
def packedIndex (b c : Nat) : Nat := c + Config.width * b

/-- `DIMOK` (R118): the whole registers compared with `W` and `H`. -/
def State.dimOk (s : State) : Bool := s.dimw == BitVec.ofNat 16 Config.width && s.dimh == BitVec.ofNat 16 Config.height

/-- `A(i) = base + 16 * i`, exact (R127). -/
def recordAddress (base : Word) (i : Nat) : Nat := base.toNat + Config.chunk * i

/-- `ADDROK(base)`: the last record's start address `base + 1008` fits in 16 bits, "equivalently `base <= 0xFC0F`"
(R127, 90_conflicts.md C4). -/
def addrOk (base : Word) : Bool := base.toNat ≤ Config.lastBase

end Sys2Proof.Machine
end

