-- ==== Sys2Proof/Machine/Checksum.lean ====
section
/-! DEFINITION. The Checksum Calculator: the function `CK` (R105) and the commands `CSCLR` and `CSADD` (R108, R109). -/

namespace Sys2Proof.Machine

/-- `SUM(s)` of R105: the exact integer sum. -/
def byteSum : List Byte → Nat
  | [] => 0
  | v :: rest => v.toNat + byteSum rest

/-- `CK(s)` (R105). -/
def ck (s : List Byte) : Byte := BitVec.ofNat 8 ((256 - byteSum s % 256) % 256)

/-- One step of an 8-bit checksum accumulator, the carry out of bit 7 discarded (R106, R158 (a)). -/
def accumulate (acc v : Byte) : Byte := BitVec.ofNat 8 ((acc.toNat + v.toNat) % 256)

/-- The checksum read off an accumulator (R106): `(256 - acc) mod 256`. -/
def ckOfAcc (acc : Byte) : Byte := BitVec.ofNat 8 ((256 - acc.toNat) % 256)

/-- `CSCLR` (R108). -/
def execCsclr (s : State) : Host.Outcome State Fault Refusal :=
  .next (State.complete { s with csacc := 0x00#8 })

/-- `CSADD #imm8` (R109). -/
def execCsadd (imm8 : Byte) (s : State) : Host.Outcome State Fault Refusal :=
  .next (State.complete { s with csacc := accumulate s.csacc imm8 })

end Sys2Proof.Machine
end

