-- ==== Sys2Proof/Machine/Encode.lean ====
section
/-! DEFINITION. The Record Encoder: record bytes, digits and lines (R89 to R92), `ENCFN` (R125 to R129) and the command
`ENCODE` (R131). -/

namespace Sys2Proof.Machine

/-- `HEXD(n)` for n in 0..15 (R90). -/
def hexDigit (n : Nat) : Byte := if n < 10 then BitVec.ofNat 8 (0x30 + n) else BitVec.ofNat 8 (0x37 + n)

/-- `HEX2(v)` (R91): high digit first. -/
def hexPair (v : Byte) : List Byte := [hexDigit (v.toNat / 16), hexDigit (v.toNat % 16)]

/-- The 20 bytes of record `i` before the checksum (R89, R128), `P` the packed buffer. -/
def recordContent (base : Word) (P : Nat → Byte) (i : Nat) : List Byte :=
  [ Config.byteCount,
    BitVec.ofNat 8 (recordAddress base i / 256),
    BitVec.ofNat 8 (recordAddress base i % 256),
    Config.recordType ]
    ++ (List.range Config.chunk).map fun m => P (Config.chunk * i + m)

/-- `REC(i)`, 21 bytes (R89). -/
def recordBytes (base : Word) (P : Nat → Byte) (i : Nat) : List Byte :=
  recordContent base P i ++ [ck (recordContent base P i)]

/-- The marker `:` (R90, R92). -/
def colon : Byte := 0x3A#8

/-- `LINE(i)`, 43 characters (R92). -/
def lineText (base : Word) (P : Nat → Byte) (i : Nat) : List Byte :=
  colon :: (recordBytes base P i).flatMap hexPair

/-- `LINE(i)[k]` (R92). -/
def lineChar (base : Word) (P : Nat → Byte) (i k : Nat) : Byte := (lineText base P i).getD k 0x00#8

/-- `OUT <- ENCFN(PB, BASE)`, the write of all 64 lines without the check (R131, R155). -/
def State.encodeAll (s : State) : State :=
  { s with out := s.out.writeAll Config.outLen fun a => lineChar s.base s.packed (a / Config.lineLen) (a % Config.lineLen) }

/-- `ENCODE` (R131). -/
def execEncode (s : State) : Host.Outcome State Fault Refusal :=
  if addrOk s.base then .next s.encodeAll.complete else .next (s.raise .addressOverflow)

end Sys2Proof.Machine
end

