-- ==== Sys2Proof/Machine/Pack.lean ====
section
/-! DEFINITION. The Bitmap Packer: `PACKFN` (R116) and the command `PACK` (R119). -/

namespace Sys2Proof.Machine

/-- `SUM over y in 0..n-1 of (2^y if f y else 0)`: the packing of bits into a number (R116). -/
def bitSum (f : Nat → Bool) : Nat → Nat
  | 0 => 0
  | n + 1 => bitSum f n + (if f n then 2 ^ n else 0)

/-- `PACKFN(G)[j]` for `j = c + 128*b` (R116). -/
def packByte (G : Nat → Nat → Pixel) (j : Nat) : Byte :=
  BitVec.ofNat 8 (bitSum (fun y => on (G (j % Config.width) (Config.blockRows * (j / Config.width) + bitRow y)))
    Config.blockRows)

/-- `PB <- PACKFN(PIX)`, the write of the whole buffer without the check (R119, R155). -/
def State.packAll (s : State) : State :=
  { s with pb := s.pb.writeAll Config.packedLen (packByte s.pixel) }

/-- `PACK` (R119). -/
def execPack (s : State) : Host.Outcome State Fault Refusal :=
  if s.dimOk then .next s.packAll.complete else .next (s.raise .invalidDimensions)

end Sys2Proof.Machine
end

