-- ==== Sys2Proof/Machine/Unpack.lean ====
section
/-! DEFINITION. The Preview Reconstructor: `UNPACKFN` (R140) and the command `UNPACK` (R142). -/

namespace Sys2Proof.Machine

/-- The preview value of a bit (R93, R140). -/
def previewOf (bit : Bool) : Byte := if bit then Config.previewOn else Config.previewOff

/-- `UNPACKFN(P)(c, r)` (R140): bit `r mod 8` of `P[c + 128*(r div 8)]`. -/
def previewPixel (P : Nat → Byte) (c r : Nat) : Byte :=
  previewOf ((P (packedIndex (r / Config.blockRows) c)).getLsbD (rowBit (r % Config.blockRows)))

/-- `PV <- UNPACKFN(PB)`, the write of the whole grid (R142, R155). -/
def State.unpackAll (s : State) : State :=
  { s with pv := s.pv.writeAll Config.gridLen fun a =>
      previewPixel s.packed (a % Config.width) (a / Config.width) }

/-- `UNPACK` (R142). -/
def execUnpack (s : State) : Host.Outcome State Fault Refusal := .next s.unpackAll.complete

end Sys2Proof.Machine
end

