-- ==== Sys2Proof/Machine/System.lean ====
section
/-! DEFINITION. `NOP` (R153), `CONVERT` (R155) and what an illegal word executes as (R154). -/

namespace Sys2Proof.Machine

/-- `NOP` (R153). -/
def execNop (s : State) : Host.Outcome State Fault Refusal := .next s.complete

/-- `CONVERT` (R155): the dimension check first, then the address check, then pack, encode and unpack, the last two from
the new `PB`. -/
def execConvert (s : State) : Host.Outcome State Fault Refusal :=
  if s.dimOk then
    if addrOk s.base then .next s.packAll.encodeAll.unpackAll.complete
    else .next (s.raise .addressOverflow)
  else .next (s.raise .invalidDimensions)

/-- `ILLEGAL` (R154): what a word that the decoder rejects executes as. -/
def execIllegal (s : State) : Host.Outcome State Fault Refusal := .next (s.raise .illegalCommand)

end Sys2Proof.Machine
end

