-- ==== Sys2Proof/Machine/Dispatch.lean ====
section
/-! DEFINITION. The dispatch of the commands to their meanings. -/

namespace Sys2Proof.Machine

/-- The effect of a command, taken whole (R150). -/
def exec (i : Instr) (s : State) : Host.Outcome State Fault Refusal :=
  match i with
  | .nop => Sys2Proof.Machine.execNop s
  | .pack => Sys2Proof.Machine.execPack s
  | .encode => Sys2Proof.Machine.execEncode s
  | .unpack => Sys2Proof.Machine.execUnpack s
  | .csclr => Sys2Proof.Machine.execCsclr s
  | .csadd imm8 => Sys2Proof.Machine.execCsadd imm8 s
  | .convert => Sys2Proof.Machine.execConvert s

end Sys2Proof.Machine
end

