-- ==== Sys2Proof/Machine/Sequencer.lean ====
section
/-! DEFINITION. The sequencer: acceptance of a command (R149) and its elementary steps, the small-step references of
R120 (`PACK`), R132 (`ENCODE`) and R143 (`UNPACK`), with `CONVERT` running the three one after the other (R155). It must
reach the state the whole-command meanings give (R152); the obligations state that. -/

namespace Sys2Proof.Machine

/-! Acceptance -/

/-- The first phase of a word (R156 "idle to the first phase of the accepted command"). -/
def firstPhase (w : Word) : Phase :=
  match decode w with
  | .illegal _ => .illegal
  | .command .nop => .nop
  | .command .pack => .dims false
  | .command .encode => .addr false
  | .command .unpack => .rebuild false
  | .command .csclr => .csclr
  | .command (.csadd imm8) => .csadd imm8
  | .command .convert => .dims true

/-- Acceptance of `w` by an idle core (R149): `BUSY` is set, `w` is decoded, every counter is 0 (R36). -/
def State.accept (w : Word) (s : State) : State :=
  { s with status := s.status.accept, seq := { Seq.idle with phase := firstPhase w } }

/-! Counters -/

/-- The bit position and row offset the scan visits: `y = 7 - SEQ.ROW` (R36). -/
def Seq.y (q : Seq) : Nat := Config.blockRows - 1 - q.row.toNat

/-- The odometer of the scans stands at its last place (7, 127, 7) (R36). -/
def Seq.lastPlace (q : Seq) : Bool :=
  q.b == BitVec.ofNat 3 (Config.blocks - 1) && q.c == BitVec.ofNat 7 (Config.width - 1)
    && q.row == BitVec.ofNat 3 (Config.blockRows - 1)

/-- The odometer of the scans advances: `SEQ.ROW` fastest, then `SEQ.C`, then `SEQ.B` (R36). -/
def Seq.nextPlace (q : Seq) : Seq :=
  if q.row == BitVec.ofNat 3 (Config.blockRows - 1) then
    if q.c == BitVec.ofNat 7 (Config.width - 1) then { q with row := 0#3, c := 0#7, b := q.b + 1#3 }
    else { q with row := 0#3, c := q.c + 1#7 }
  else { q with row := q.row + 1#3 }

/-- The sequencer at the start of a phase, every counter 0. -/
def Seq.enter (p : Phase) : Seq := { Seq.idle with phase := p }

/-! Elementary steps -/

/-- The dimension check (R120 phase 0; first check of R155). -/
def State.tickDims (conv : Bool) (s : State) : State :=
  if s.dimOk then { s with seq := Seq.enter (if conv then .addr true else .clear false) }
  else s.raise .invalidDimensions

/-- The sequencer at record 0: `ADDR17` starts at `BASE` (R36). -/
def State.startEncode (conv : Bool) (s : State) : State :=
  { s with seq := { Seq.enter (.load conv) with addr17 := s.base.setWidth 17 } }

/-- The address check (R132 phase 0; second check of R155). -/
def State.tickAddr (conv : Bool) (s : State) : State :=
  if addrOk s.base then
    if conv then { s with seq := Seq.enter (.clear true) } else s.startEncode false
  else s.raise .addressOverflow

/-- One step of the clearing pass: `MemWrite(PB, SEQ.J, 0x00)` (R119, R120 phase 1). -/
def State.tickClear (conv : Bool) (s : State) : State :=
  let s' := { s with pb := s.pb.write s.seq.j.toNat 0x00#8 }
  if s.seq.j == BitVec.ofNat 10 (Config.packedLen - 1) then { s' with seq := Seq.enter (.scan conv) }
  else { s' with seq := { s.seq with j := s.seq.j + 1#10 } }

/-- The `PB` index of the place the scan visits (R36, R60). -/
def Seq.packedPlace (q : Seq) : Nat := packedIndex q.b.toNat q.c.toNat

/-- The row of the place the scan visits, for bit `y` (R36, R87). -/
def Seq.rowPlace (q : Seq) : Nat := Config.blockRows * q.b.toNat + bitRow q.y

/-- The write of one place of the `PACK` scan: if the pixel is on, bit `y` of the byte is set (R119). -/
def State.scanPlace (s : State) : State :=
  if on (s.pixel s.seq.c.toNat s.seq.rowPlace) then
    { s with pb := s.pb.write s.seq.packedPlace (s.packed s.seq.packedPlace ||| (1#8 <<< s.seq.y)) }
  else s

/-- One step of the `PACK` scan (R120 phase 2); after the last place `PACK` completes and `CONVERT` goes on to encode. -/
def State.tickScan (conv : Bool) (s : State) : State :=
  let s' := s.scanPlace
  if s.seq.lastPlace then (if conv then s'.startEncode true else s'.complete)
  else { s' with seq := s.seq.nextPlace }

/-- The start of a record (R132): `RSUM` cleared and the `:` written; `ADDR17` already holds `BASE + 16*SEQ.I`. -/
def State.tickLoad (conv : Bool) (s : State) : State :=
  { s with
    out := s.out.write (outIndex s.seq.i.toNat 0) colon
    seq := { s.seq with phase := .emit conv, k := 0#5, rsum := 0x00#8 } }

/-- Byte `SEQ.K` of the current record (R132): the header for 0..3, the chunk for 4..19, `(256 - RSUM) mod 256` for 20. -/
def State.emitByte (s : State) : Byte :=
  match s.seq.k.toNat with
  | 0 => Config.byteCount
  | 1 => s.seq.addr17.extractLsb' 8 8
  | 2 => s.seq.addr17.extractLsb' 0 8
  | 3 => Config.recordType
  | k => if k < Config.contentLen then s.packed (Config.chunk * s.seq.i.toNat + (k - 4)) else ckOfAcc s.seq.rsum

/-- The two digits of byte `SEQ.K` written to `OUT` (R131, R132). -/
def State.emitDigits (s : State) : State :=
  let i := s.seq.i.toNat
  let k := s.seq.k.toNat
  let high := s.out.write (outIndex i (1 + 2 * k)) (hexDigit (s.emitByte.toNat / 16))
  { s with out := high.write (outIndex i (2 + 2 * k)) (hexDigit (s.emitByte.toNat % 16)) }

/-- One step of a record (R132): a content byte is also summed; after byte 20 the next record begins with `ADDR17`
increased by 16, and after the last record `ENCODE` completes and `CONVERT` goes on to reconstruct. -/
def State.tickEmit (conv : Bool) (s : State) : State :=
  let s' := s.emitDigits
  if s.seq.k.toNat < Config.contentLen then
    { s' with seq := { s.seq with k := s.seq.k + 1#5, rsum := accumulate s.seq.rsum s.emitByte } }
  else if s.seq.i == BitVec.ofNat 6 (Config.records - 1) then
    (if conv then { s' with seq := Seq.enter (.rebuild true) } else s'.complete)
  else
    { s' with
      seq := { s.seq with
        phase  := .load conv
        k      := 0#5
        i      := s.seq.i + 1#6
        addr17 := s.seq.addr17 + BitVec.ofNat 17 Config.chunk } }

/-- One step of the `UNPACK` scan (R143); after the last place the command completes. -/
def State.tickRebuild (s : State) : State :=
  let value := previewOf ((s.packed s.seq.packedPlace).getLsbD s.seq.y)
  let s' := { s with pv := s.pv.write (gridIndex s.seq.c.toNat s.seq.rowPlace) value }
  if s.seq.lastPlace then s'.complete else { s' with seq := s.seq.nextPlace }

/-- One elementary step of the core. An idle core does nothing (R192). -/
def tick (s : State) : Host.Outcome State Fault Refusal :=
  match s.seq.phase with
  | .idle => .next s
  | .nop => Sys2Proof.Machine.execNop s
  | .csclr => Sys2Proof.Machine.execCsclr s
  | .csadd imm8 => Sys2Proof.Machine.execCsadd imm8 s
  | .illegal => Sys2Proof.Machine.execIllegal s
  | .dims conv => .next (s.tickDims conv)
  | .addr conv => .next (s.tickAddr conv)
  | .clear conv => .next (s.tickClear conv)
  | .scan conv => .next (s.tickScan conv)
  | .load conv => .next (s.tickLoad conv)
  | .emit conv => .next (s.tickEmit conv)
  | .rebuild _ => .next s.tickRebuild

end Sys2Proof.Machine
end

