-- ==== Sys2Proof/Machine/HostMoves.lean ====
section
/-! DEFINITION. The moves of the host (R196): command words (R149, R150), registers, elements, reset (R190, R191), and
what may happen while a command runs (R197). -/

namespace Sys2Proof.Machine

/-- `STEP(S, w)` of R150: a command word accepted by an idle core and executed to completion. -/
def issue (w : Word) (s : State) : Host.Outcome State Fault Refusal :=
  match decode w with
  | .command i => exec i s
  | .illegal _ => Sys2Proof.Machine.execIllegal s

/-! Reset -/

/-- What a reset makes of a memory: an idle core keeps it (R191), a core with a command in execution has new unspecified
contents in it (R190, R38; log 7). -/
def Memory.afterReset {w : Nat} (m : Memory w) (sp : MemSpace) (p : Phase) (n : Nat) : Memory w :=
  if p = .idle then m else Memory.fresh w sp n

/-- The `reset` move (R190, R191): the registers, `CSACC` and the sequencer as R38 tabulates them; the four memories
unspecified, but for a reset while idle, which "leaves the memories as they were" (log 7). What the host has seen and has
still to do is not the core's and stays. -/
def State.hostReset (s : State) : State :=
  { State.reset with
    pix     := s.pix.afterReset .pix s.seq.phase s.fresh
    pb      := s.pb.afterReset .pb s.seq.phase s.fresh
    out     := s.out.afterReset .out s.seq.phase s.fresh
    pv      := s.pv.afterReset .pv s.seq.phase s.fresh
    fresh   := s.fresh + 1
    events  := s.events
    answers := s.answers }

/-! Moves on an idle core -/

/-- The effect of a host move while the core is idle (R196). -/
def hostMove (m : HostMove) (s : State) : Host.Outcome State Fault Refusal :=
  match m with
  | .reset => .next s.hostReset
  | .readReg n => .next (s.answer (.reg (s.readRegister n)))
  | .writeReg n v => if n = 0#3 then issue v s else .next (s.writeRegister n v)
  | .readPix c r => .next (s.answer (.pixel (s.pixel c.toNat r.toNat)))
  | .writePix c r v => .next { s with pix := s.pix.write (gridIndex c.toNat r.toNat) v }
  | .readPb j => .next (s.answer (.byte (s.packed j.toNat)))
  | .writePb j v => .next { s with pb := s.pb.write j.toNat v }
  | .readOut i k => .next (s.answer (.byte (s.outChar i.toNat k.toNat)))
  | .writeOut _ _ _ => .next s
  | .readPv c r => .next (s.answer (.byte (s.preview c.toNat r.toNat)))
  | .writePv _ _ _ => .next s

/-- An event that meets an idle core. -/
def idleEvent (e : Event) (s : State) : Host.Outcome State Fault Refusal :=
  match e with
  | .move m => hostMove m s
  | .start w => .next (s.accept w)
  | .tick => tick s

/-! Moves while a command runs -/

/-- An event that meets a core with a command in execution (R196, R197): a read of `STATUS`, a reset, or a step of the
core itself; anything else has no meaning (log 8). -/
def busyEvent (e : Event) (s : State) : Host.Outcome State Fault Refusal :=
  match e with
  | .tick => tick s
  | .move .reset => .next s.hostReset
  | .move (.readReg n) =>
    if n = 1#3 then .next (s.answer (.reg (s.readRegister n))) else .refused .accessWhileBusy
  | .move _ => .refused .accessWhileBusy
  | .start _ => .refused .accessWhileBusy

/-- The next event of the list happens. With nothing left to happen an idle core stays as it is (R192) and a running
command goes on by elementary steps (R156: every command terminates). -/
def nextEvent (s : State) : Host.Outcome State Fault Refusal :=
  match s.events with
  | [] => tick s
  | e :: rest =>
    if s.status.busy then busyEvent e { s with events := rest } else idleEvent e { s with events := rest }

/-- The core made ready to be given the command word `w` as its very next move: idle, and the write of `w` to `CMD` at
the head of what is still to happen (R149, R22). -/
def State.withCommandWord (s : State) (w : Word) : State :=
  { s with
    status := { s.status with busy := false }
    seq    := Seq.idle
    events := .move (.writeReg 0#3 w) :: s.events }

end Sys2Proof.Machine
end

