-- ==== Sys2Proof/Machine/Step.lean ====
section
/-! DEFINITION. The one step of the machine. -/

namespace Sys2Proof.Machine

/-- One step: the next of the events in State, or, with none left, one elementary step of the core (log 3). -/
def step (s : State) : Host.Outcome State Fault Refusal := nextEvent s

/-- `s` with the command word `w` placed where the next step takes its command from: the write of `CMD` at the head of
the events. A command is one 16-bit word (R80), so `nbits` beyond 16 adds nothing (log 13). -/
def State.withFetchWord (s : State) (nbits w : Nat) : State :=
  s.withCommandWord (BitVec.ofNat 16 (w % 2 ^ nbits))

end Sys2Proof.Machine
end

