-- ==== Sys2Proof/Machine/Assembler.lean ====
section
/-! DEFINITION. Host programs in the assembler syntax of R81: the lines, their pseudo-instructions, and the host moves
they stand for. Operands are numbers as they are written; WellFormed.lean says which lines are well formed (log 17). -/

namespace Sys2Proof.Machine

/-- The registers a line names (R21, R81). -/
inductive RegName where
  | cmd
  | status
  | base
  | dimw
  | dimh
  | csum
deriving DecidableEq, Repr

/-- The number of a register (R21). -/
def RegName.number : RegName → BitVec 3
  | .cmd => 0#3
  | .status => 1#3
  | .base => 2#3
  | .dimw => 3#3
  | .dimh => 4#3
  | .csum => 5#3

/-- The element a `WRM` or `RDM` line names: `OUT` index `(i,k)`, `PIX` and `PV` index `(c,r)` (R81). -/
inductive ElementRef where
  | pix (c r : Nat)
  | pb (j : Nat)
  | out (i k : Nat)
  | pv (c r : Nat)
deriving DecidableEq, Repr

/-- The space an element is in. -/
def ElementRef.space : ElementRef → MemSpace
  | .pix _ _ => .pix
  | .pb _ => .pb
  | .out _ _ => .out
  | .pv _ _ => .pv

/-- One line of a host program (R81). -/
inductive Line where
  /-- The mnemonic of a command. -/
  | command (i : Instr)
  /-- `CSADD #v`, the operand as written. -/
  | csadd (v : Nat)
  /-- `WR reg, v`; with `CMD` the raw command word `v`, legal or not. -/
  | wr (r : RegName) (v : Nat)
  /-- `RD reg`. -/
  | rd (r : RegName)
  /-- `WRM space[idx], v`. -/
  | wrm (e : ElementRef) (v : Nat)
  /-- `RDM space[idx]`. -/
  | rdm (e : ElementRef)
  /-- `CSUM v0, v1, .., vn`. -/
  | csum (vs : List Nat)
  /-- `SETBASE v`. -/
  | setbase (v : Nat)
  /-- `SETDIM w, h`. -/
  | setdim (w h : Nat)
  /-- `FILL space, v`. -/
  | fill (sp : MemSpace) (v : Nat)
deriving DecidableEq, Repr

/-- The write of a register. -/
def wrMove (r : RegName) (v : Nat) : HostMove := .writeReg r.number (BitVec.ofNat 16 v)

/-- The word of `CSADD #v`: `0x0500 + v` (R81). -/
def csaddWord (v : Nat) : Nat := 0x0500 + v

/-- The write of one element. -/
def wrmMove (e : ElementRef) (v : Nat) : HostMove :=
  match e with
  | .pix c r => .writePix (BitVec.ofNat 7 c) (BitVec.ofNat 6 r) (BitVec.ofNat 24 v)
  | .pb j => .writePb (BitVec.ofNat 10 j) (BitVec.ofNat 8 v)
  | .out i k => .writeOut (BitVec.ofNat 6 i) (BitVec.ofNat 6 k) (BitVec.ofNat 8 v)
  | .pv c r => .writePv (BitVec.ofNat 7 c) (BitVec.ofNat 6 r) (BitVec.ofNat 8 v)

/-- The read of one element. -/
def rdmMove (e : ElementRef) : HostMove :=
  match e with
  | .pix c r => .readPix (BitVec.ofNat 7 c) (BitVec.ofNat 6 r)
  | .pb j => .readPb (BitVec.ofNat 10 j)
  | .out i k => .readOut (BitVec.ofNat 6 i) (BitVec.ofNat 6 k)
  | .pv c r => .readPv (BitVec.ofNat 7 c) (BitVec.ofNat 6 r)

/-- The elements of a space in increasing linear index (R51, R81 `FILL`). -/
def elementsOf : MemSpace → List ElementRef
  | .pix => (List.range Config.gridLen).map fun a => .pix (a % Config.width) (a / Config.width)
  | .pb => (List.range Config.packedLen).map .pb
  | .out => (List.range Config.outLen).map fun a => .out (a / Config.lineLen) (a % Config.lineLen)
  | .pv => (List.range Config.gridLen).map fun a => .pv (a % Config.width) (a / Config.width)

/-- The host moves of a line, the pseudo-instructions expanded (R81). -/
def Line.moves : Line → List HostMove
  | .command i => [.writeReg 0#3 (encode i)]
  | .csadd v => [wrMove .cmd (csaddWord v)]
  | .wr r v => [wrMove r v]
  | .rd r => [.readReg r.number]
  | .wrm e v => [wrmMove e v]
  | .rdm e => [rdmMove e]
  | .csum vs => wrMove .cmd 0x0400 :: vs.map (fun v => wrMove .cmd (csaddWord v)) ++ [.readReg (RegName.number .csum)]
  | .setbase v => [wrMove .base v]
  | .setdim w h => [wrMove .dimw w, wrMove .dimh h]
  | .fill sp v => (elementsOf sp).map fun e => wrmMove e v

/-- A host program as events: its lines in order, each command taken whole (R81, R150). -/
def programEvents (p : List Line) : List Event := (p.flatMap Line.moves).map .move

/-- The start of a run (R204): the core after reset, the program still to happen. -/
def State.withProgram (p : List Line) : State := { State.reset with events := programEvents p }

end Sys2Proof.Machine
end

