-- ==== Sys2Proof/WellFormed.lean ====
section
/-! DEFINITION. Which terms are well formed: commands, and the assembler lines of a host program (R81). -/

namespace Sys2Proof

/-- Every command is well formed: the one operand is a byte by its type (R76 "an unsigned byte value 0..255"), so no
check is left. The constructors are listed so that a new one cannot slip past. -/
def Instr.wf : Instr → Bool
  | .nop => true
  | .pack => true
  | .encode => true
  | .unpack => true
  | .csclr => true
  | .csadd _ => true
  | .convert => true

namespace Machine

/-- A value fits in a register (R21, R81 "v" of `WR`). -/
def fitsWord (v : Nat) : Bool := v < 65536

/-- A value is a byte (R81 "a byte value 0..255"). -/
def fitsByte (v : Nat) : Bool := v < 256

/-- The element named by a line exists in its space (R50: the legal ranges of the indices). -/
def ElementRef.wf : ElementRef → Bool
  | .pix c r => c < Config.width && r < Config.height
  | .pb j => j < Config.packedLen
  | .out i k => i < Config.records && k < Config.lineLen
  | .pv c r => c < Config.width && r < Config.height

/-- The value a `WRM` or `FILL` stores fits the element, and the space is one the host writes: "host write of one
element of `PIX` or `PB`" (R81). -/
def MemSpace.storable (sp : MemSpace) (v : Nat) : Bool :=
  match sp with
  | .pix => v < 16777216
  | .pb => fitsByte v
  | .out => false
  | .pv => false

/-- The checks on one line of a host program (R81). -/
def Line.wf : Line → Bool
  | .command i => i.wf
  | .csadd v => fitsByte v
  | .wr _ v => fitsWord v
  | .rd _ => true
  | .wrm e v => e.wf && MemSpace.storable e.space v
  | .rdm e => e.wf
  | .csum vs => vs.all fitsByte
  | .setbase v => fitsWord v
  | .setdim w h => fitsWord w && fitsWord h
  | .fill sp v => MemSpace.storable sp v

/-- A host program is well formed when each of its lines is. -/
def wfProgram (p : List Line) : Bool := p.all Line.wf

end Machine
end Sys2Proof
end

