-- ==== Sys2Proof/Safety.lean ====
section
/-! DEFINITION. What claims are stated in: the good run (R171, R204), the invariant every step keeps, many
steps, many commands, and the numbers a text record stands for, written from R89 and R90 and not from the encoder. -/

namespace Sys2Proof.Machine

/-- No command has failed since reset: `STATUS[10:8] = 0` (R171, R204). -/
def State.noCommandFailed (s : State) : Prop :=
  s.status.edim = false ∧ s.status.eaddr = false ∧ s.status.eill = false

/-- `ERR` holds a code that R166 lets the core write: 0, 1, 2 or 4. -/
def Status.legalErr (st : Status) : Prop := st.err = 0#4 ∨ st.err = 1#4 ∨ st.err = 2#4 ∨ st.err = 4#4

/-- Unspecified contents are numbered below the next number to be given out (log 1). -/
def Background.usedBelow {w : Nat} (bg : Background w) (n : Nat) : Prop :=
  match bg with
  | .unspecified _ k => k < n
  | .filled _ => True

/-- What holds of the sequencer at each phase (R36, R132, R155): idle counters are 0, a phase past a check finds the
check true, `SEQ.K` is at most 20, and `ADDR17` is the current record's address. -/
def State.seqInv (s : State) : Prop :=
  match s.seq.phase with
  | .idle => s.seq = Seq.idle
  | .nop => True
  | .csclr => True
  | .csadd _ => True
  | .illegal => True
  | .dims _ => True
  | .addr conv => conv = true → s.dimOk = true
  | .clear conv => s.dimOk = true ∧ (conv = true → addrOk s.base = true)
  | .scan conv => s.dimOk = true ∧ (conv = true → addrOk s.base = true)
  | .load conv => addrOk s.base = true ∧ (conv = true → s.dimOk = true) ∧
      s.seq.addr17.toNat = recordAddress s.base s.seq.i.toNat
  | .emit conv => addrOk s.base = true ∧ (conv = true → s.dimOk = true) ∧
      s.seq.addr17.toNat = recordAddress s.base s.seq.i.toNat ∧ s.seq.k.toNat ≤ 20
  | .rebuild conv => conv = true → s.dimOk = true ∧ addrOk s.base = true

/-- The four memories are in canonical form, each within its length (R29 to R32). -/
def State.memoriesWf (s : State) : Prop :=
  s.pix.wf Config.gridLen ∧ s.pb.wf Config.packedLen ∧ s.out.wf Config.outLen ∧ s.pv.wf Config.gridLen

/-- The invariant of the machine. -/
structure State.Inv (s : State) : Prop where
  /-- Memories are canonical. -/
  memories : s.memoriesWf
  /-- `ERR` codes 3 and 5..15 never appear (R166, R168). -/
  err : s.status.legalErr
  /-- An error code other than 0 is recorded by its sticky bit (R170, R171). -/
  sticky : (s.status.err = 1#4 → s.status.edim = true) ∧ (s.status.err = 2#4 → s.status.eaddr = true) ∧
    (s.status.err = 4#4 → s.status.eill = true)
  /-- Nothing is reported before a command has completed (R23). -/
  done : s.status.done = false → s.status.err = 0#4 ∧ s.noCommandFailed
  /-- `BUSY` says whether a command is executing (R149). -/
  busy : s.status.busy = true ↔ s.seq.phase ≠ Phase.idle
  /-- The sequencer at its phase. -/
  seq : s.seqInv
  /-- Unspecified contents have numbers already given out. -/
  fresh : s.pix.background.usedBelow s.fresh ∧ s.pb.background.usedBelow s.fresh ∧
    s.out.background.usedBelow s.fresh ∧ s.pv.background.usedBelow s.fresh

/-- `n` steps of the machine, stopping at the first fault or refusal. -/
def steps : Nat → State → Host.Outcome State Fault Refusal
  | 0, s => .next s
  | n + 1, s =>
    match step s with
    | .next t => steps n t
    | .fault f => .fault f
    | .refused r => .refused r

/-- A list of commands, each taken whole, one after the other (R150, R204). -/
def execAll : List Instr → State → Host.Outcome State Fault Refusal
  | [], s => .next s
  | i :: rest, s =>
    match exec i s with
    | .next t => execAll rest t
    | .fault f => .fault f
    | .refused r => .refused r

/-- The bytes a list of host moves appends to the checksum sequence, in order (R109, R110). -/
def pushedBytes : List HostMove → List Byte
  | [] => []
  | m :: rest =>
    match m with
    | .writeReg n w =>
      match decode w with
      | .command (.csadd v) => if n = 0#3 then v :: pushedBytes rest else pushedBytes rest
      | _ => pushedBytes rest
    | _ => pushedBytes rest

/-- The code of the uppercase hexadecimal digit of `n`, n in 0..15 (R90). -/
def digitCode (n : Nat) : Nat := if n < 10 then 0x30 + n else 0x37 + n

/-- The value of position `n` of record `i` of the buffer in `PB` at the base in `BASE`, from the table of R89, the
checksum from R105. -/
def State.recordValue (s : State) (i n : Nat) : Nat :=
  let A := s.base.toNat + 16 * i
  if n = 0 then 16
  else if n = 1 then A / 256
  else if n = 2 then A % 256
  else if n = 3 then 0
  else if n < 20 then (s.packed (16 * i + (n - 4))).toNat
  else (256 - (16 + A / 256 + A % 256 + 0 + ((List.range 16).map fun m => (s.packed (16 * i + m)).toNat).sum) % 256) % 256

/-- `OUT` holds the 64 lines of the buffer in `PB` at the base in `BASE` (R92): the marker, then the two digits of each
of the 21 values of each record. -/
def State.outHoldsRecordsOf (t s : State) : Prop :=
  ∀ i, i < 64 → t.outChar i 0 = 0x3A#8 ∧
    ∀ n, n < 21 → (t.outChar i (1 + 2 * n)).toNat = digitCode (s.recordValue i n / 16) ∧
      (t.outChar i (2 + 2 * n)).toNat = digitCode (s.recordValue i n % 16)

/-- `PB` of `t` holds `PACKFN` of the grid in `PIX` of `s` (R116): each bit is set when its pixel is not pure white. -/
def State.packedHoldsGridOf (t s : State) : Prop :=
  ∀ b c y, b < 8 → c < 128 → y < 8 →
    (t.packed (c + 128 * b)).getLsbD y = decide (s.pixel c (8 * b + y) ≠ 0xFFFFFF#24)

/-- `PV` of `t` holds `UNPACKFN` of the buffer in `PB` of `s` (R140, the second form). -/
def State.previewHoldsBufferOf (t s : State) : Prop :=
  ∀ c r, c < 128 → r < 64 →
    t.preview c r = if (s.packed (c + 128 * (r / 8))).toNat / 2 ^ (r % 8) % 2 = 1 then 0x00#8 else 0xFF#8

/-- The number an uppercase hexadecimal digit's code stands for (the inverse of R90), 16 for any other code. -/
def hexValue (ch : Byte) : Nat :=
  if 0x30 ≤ ch.toNat ∧ ch.toNat ≤ 0x39 then ch.toNat - 0x30
  else if 0x41 ≤ ch.toNat ∧ ch.toNat ≤ 0x46 then ch.toNat - 0x37
  else 16

/-- Byte `n` of line `i` of `OUT`, read back from its two digits (R92: characters `1 + 2n` and `2 + 2n`). -/
def State.lineByte (s : State) (i n : Nat) : Nat :=
  16 * hexValue (s.outChar i (1 + 2 * n)) + hexValue (s.outChar i (2 + 2 * n))

end Sys2Proof.Machine
end

