-- ==== Sys2Proof/Certificates/Slice0/Obligations.lean ====
section
/-! DEFINITION. The statements for the provers, from the numbered rules of spec/. -/

open Sys2Proof Sys2Proof.Machine

/-! Encoding -/

/-- R79: the decoder is the decision list of the rule, on every word. -/
def Obligations.DecodeFollowsTheOpcodeMap : Prop :=
  ∀ w : Word,
    (w.toNat / 256 = 0x05 → decode w = .command (.csadd (BitVec.ofNat 8 (w.toNat % 256)))) ∧
    (w.toNat / 256 ≠ 0x05 → w.toNat % 256 ≠ 0x00 → ∃ e, decode w = .illegal e) ∧
    (w.toNat % 256 = 0x00 →
      (w.toNat / 256 = 0x00 → decode w = .command .nop) ∧
      (w.toNat / 256 = 0x01 → decode w = .command .pack) ∧
      (w.toNat / 256 = 0x02 → decode w = .command .encode) ∧
      (w.toNat / 256 = 0x03 → decode w = .command .unpack) ∧
      (w.toNat / 256 = 0x04 → decode w = .command .csclr) ∧
      (w.toNat / 256 = 0x06 → decode w = .command .convert) ∧
      (0x06 < w.toNat / 256 → ∃ e, decode w = .illegal e))

/-- R75 to R80: every command survives encoding and decoding with its operand, and a word that decodes to a command is
that command's one word. -/
def Obligations.DecodeEncodeRoundTrip : Prop :=
  (∀ i : Instr, i.wf = true → decode (encode i) = .command i) ∧
  (∀ (w : Word) (i : Instr), decode w = .command i → encode i = w)

/-- R78: of the 65536 words, 262 are legal. -/
def Obligations.LegalWordsAre262 : Prop :=
  ∃ l : List Word, l.Nodup ∧ l.length = 262 ∧ ∀ w : Word, w ∈ l ↔ ∃ i, decode w = .command i

/-- R77: the decoder and the opcode table agree, and no word is of two rows. -/
def Obligations.DecoderAgreesWithTheOpcodeTable : Prop :=
  ∀ w : Word,
    (∀ i, decode w = .command i →
      ∃ row ∈ opcodeTable, row.matchesWord w = true ∧ row.mnemonic = mnemonicOf i ∧
        ∀ row' ∈ opcodeTable, row'.matchesWord w = true → row' = row) ∧
    ((∃ e, decode w = .illegal e) ↔ ∀ row ∈ opcodeTable, row.matchesWord w = false)

/-- Words written out from the encodings of R77 (vectors V-DEC of 95_test_vectors.md). -/
def Obligations.WordsOfEveryFamilyDecode : Prop :=
  decode 0x0000#16 = .command .nop ∧ decode 0x0100#16 = .command .pack ∧ decode 0x0200#16 = .command .encode ∧
  decode 0x0300#16 = .command .unpack ∧ decode 0x0400#16 = .command .csclr ∧
  decode 0x0571#16 = .command (.csadd 0x71#8) ∧ decode 0x05FF#16 = .command (.csadd 0xFF#8) ∧
  decode 0x0600#16 = .command .convert ∧
  decode 0x0101#16 = .illegal (.nonzeroOperand 0x01#8 0x01#8) ∧
  decode 0x0700#16 = .illegal (.unassignedOpcode 0x07#8)

/-! The step -/

/-- R22, R149, R150: with the write of a command word next and the core idle, a step is `exec` of the decoded command at
the state with that move taken off the list; and `withFetchWord` makes a command's word the next move. -/
def Obligations.StepRunsTheDecodedCommand : Prop :=
  (∀ (s : State) (w : Word) (i : Instr) (rest : List Event),
    s.status.busy = false → s.events = .move (.writeReg 0#3 w) :: rest → decode w = .command i →
    step s = exec i { s with events := rest }) ∧
  (∀ (s : State) (i : Instr),
    step (s.withFetchWord 16 (encode i).toNat)
      = exec i { s with status := { s.status with busy := false }, seq := Seq.idle })

/-- R154: an illegal word raises `IllegalCommand` and changes nothing else; 0x0101 is illegal, 0x05FF is not; from
`STATUS` = 0x0000, word 0x0700 gives 0x0442. That the sequencer is idle afterwards is R36 and R170. -/
def Obligations.IllegalWordRaisesIllegalCommand : Prop :=
  (∀ (s : State) (w : Word) (e : DecodeError) (rest : List Event),
    s.status.busy = false → s.events = .move (.writeReg 0#3 w) :: rest → decode w = .illegal e →
    step s = .next { s with
      status := { s.status with busy := false, done := true, err := 4#4, eill := true }
      seq := Seq.idle
      events := rest }) ∧
  (∃ e, decode 0x0101#16 = .illegal e) ∧ decode 0x05FF#16 = .command (.csadd 0xFF#8) ∧
  (∀ (s : State) (rest : List Event),
    s.status.word = 0x0000#16 → s.events = .move (.writeReg 0#3 0x0700#16) :: rest →
    ∃ t, step s = .next t ∧ t.status.word = 0x0442#16)

/-- R192: an idle core with nothing to happen stays as it is. -/
def Obligations.IdleCoreWaits : Prop :=
  ∀ s : State, s.events = [] → s.seq.phase = .idle → step s = .next s

/-- R150, R175, R197: no step faults, and a step is refused exactly when the host touches a core with a command in
execution, other than to read `STATUS` or to reset it. -/
def Obligations.OnlyAccessWhileBusyIsRefused : Prop :=
  ∀ s : State,
    (∀ f, step s ≠ .fault f) ∧
    (∀ r, step s = .refused r ↔
      r = .accessWhileBusy ∧ s.status.busy = true ∧
      ∃ e rest, s.events = e :: rest ∧ e ≠ .tick ∧ e ≠ .move .reset ∧ e ≠ .move (.readReg 1#3))

/-! The commands -/

/-- R153: `NOP`. -/
def Obligations.NopCompletesAndDoesNothingElse : Prop :=
  decode 0x0000#16 = .command .nop ∧
  (∀ s : State, exec .nop s = .next { s with
    status := { s.status with busy := false, done := true, err := 0#4 }
    seq := Seq.idle }) ∧
  (∀ s : State, s.status.word = 0x0112#16 → ∃ t, exec .nop s = .next t ∧ t.status.word = 0x0102#16)

/-- R108: `CSCLR`; after it `CSUM` reads 0x0000. -/
def Obligations.CsclrBeginsAnEmptySequence : Prop :=
  decode 0x0400#16 = .command .csclr ∧
  ∀ s : State, ∃ t, exec .csclr s = .next t ∧
    t = { s with
      csacc := 0x00#8
      status := { s.status with busy := false, done := true, err := 0#4 }
      seq := Seq.idle } ∧
    t.readRegister 5#3 = 0x0000#16

/-- R109: `CSADD #imm8`, for every operand; and the rule's example. -/
def Obligations.CsaddAppendsOneByte : Prop :=
  (∀ (s : State) (v : Byte),
    decode (BitVec.ofNat 16 (0x0500 + v.toNat)) = .command (.csadd v) ∧
    exec (.csadd v) s = .next { s with
      csacc := BitVec.ofNat 8 ((s.csacc.toNat + v.toNat) % 256)
      status := { s.status with busy := false, done := true, err := 0#4 }
      seq := Seq.idle }) ∧
  (∀ s : State, s.csacc = 0x00#8 →
    ∃ t, execAll [.csadd 0x10#8, .csadd 0x71#8, .csadd 0x40#8, .csadd 0x00#8] s = .next t ∧
      t.csacc = 0xC1#8 ∧ t.readRegister 5#3 = 0x003F#16)

/-- R119: `PACK`, with the right dimensions and with any others. -/
def Obligations.PackPacksTheGridOrRejectsIt : Prop :=
  decode 0x0100#16 = .command .pack ∧
  (∀ s : State, s.dimw = 128#16 → s.dimh = 64#16 →
    ∃ t, exec .pack s = .next t ∧ t.packedHoldsGridOf s ∧
      t = { s with
        pb := t.pb
        status := { s.status with busy := false, done := true, err := 0#4 }
        seq := Seq.idle }) ∧
  (∀ s : State, ¬ (s.dimw = 128#16 ∧ s.dimh = 64#16) →
    exec .pack s = .next { s with
      status := { s.status with busy := false, done := true, err := 1#4, edim := true }
      seq := Seq.idle })

/-- R131: `ENCODE`, with a base that fits and with one that does not. -/
def Obligations.EncodeWritesTheRecordsOrRejectsTheBase : Prop :=
  decode 0x0200#16 = .command .encode ∧
  (∀ s : State, s.base.toNat + 1008 ≤ 0xFFFF →
    ∃ t, exec .encode s = .next t ∧ t.outHoldsRecordsOf s ∧
      t = { s with
        out := t.out
        status := { s.status with busy := false, done := true, err := 0#4 }
        seq := Seq.idle }) ∧
  (∀ s : State, 0xFFFF < s.base.toNat + 1008 →
    exec .encode s = .next { s with
      status := { s.status with busy := false, done := true, err := 2#4, eaddr := true }
      seq := Seq.idle })

/-- R142: `UNPACK`, which checks nothing. -/
def Obligations.UnpackReconstructsThePreview : Prop :=
  decode 0x0300#16 = .command .unpack ∧
  ∀ s : State, ∃ t, exec .unpack s = .next t ∧ t.previewHoldsBufferOf s ∧
    t = { s with
      pv := t.pv
      status := { s.status with busy := false, done := true, err := 0#4 }
      seq := Seq.idle }

/-- R155: `CONVERT`; the lines and the preview are those of the new `PB`; the dimension error comes first; on success
its state is the very state of `PACK`, `ENCODE`, `UNPACK`, and of `PACK`, `UNPACK`, `ENCODE`; with good dimensions and a
bad base it writes nothing where the three commands write `PB` and `PV`. -/
def Obligations.ConvertRunsTheWholeFlowOrWritesNothing : Prop :=
  decode 0x0600#16 = .command .convert ∧
  (∀ s : State, s.dimw = 128#16 → s.dimh = 64#16 → s.base.toNat + 1008 ≤ 0xFFFF →
    (∃ t, exec .convert s = .next t ∧ t.packedHoldsGridOf s ∧ t.outHoldsRecordsOf t ∧ t.previewHoldsBufferOf t ∧
      t = { s with
        pb := t.pb
        out := t.out
        pv := t.pv
        status := { s.status with busy := false, done := true, err := 0#4 }
        seq := Seq.idle }) ∧
    execAll [.pack, .encode, .unpack] s = exec .convert s ∧
    execAll [.pack, .unpack, .encode] s = exec .convert s) ∧
  (∀ s : State, ¬ (s.dimw = 128#16 ∧ s.dimh = 64#16) →
    exec .convert s = .next { s with
      status := { s.status with busy := false, done := true, err := 1#4, edim := true }
      seq := Seq.idle }) ∧
  (∀ s : State, s.dimw = 128#16 → s.dimh = 64#16 → 0xFFFF < s.base.toNat + 1008 →
    exec .convert s = .next { s with
      status := { s.status with busy := false, done := true, err := 2#4, eaddr := true }
      seq := Seq.idle } ∧
    ∃ t, execAll [.pack, .unpack, .encode] s = .next t ∧
      t.packedHoldsGridOf s ∧ t.previewHoldsBufferOf t ∧ t.out = s.out ∧ t.status.err = 2#4)

/-- R151: every command completes from every state, with `DONE` set, `BUSY` clear and the sequencer idle. -/
def Obligations.EveryCommandCompletes : Prop :=
  ∀ (i : Instr) (s : State), ∃ t, exec i s = .next t ∧
    t.status.done = true ∧ t.status.busy = false ∧ t.seq = Seq.idle ∧
    (t.status.err = 0#4 ∨ t.status.err = 1#4 ∨ t.status.err = 2#4)

/-- R151, R170, R200: a command that completes with an error has written nothing but `STATUS`, and its sticky bit. -/
def Obligations.FailedCommandChangesOnlyStatus : Prop :=
  ∀ (i : Instr) (s t : State), exec i s = .next t → t.status.err ≠ 0#4 →
    t = { s with status := t.status, seq := Seq.idle } ∧
    (t.status.err = 1#4 ∧ t.status = { s.status with busy := false, done := true, err := 1#4, edim := true } ∨
      t.status.err = 2#4 ∧ t.status = { s.status with busy := false, done := true, err := 2#4, eaddr := true })

/-- R174: a failed command issued again without a change fails again, with the same code and in the same state. -/
def Obligations.FailureRecursUntilTheInputIsFixed : Prop :=
  ∀ (i : Instr) (s t : State), exec i s = .next t → t.status.err ≠ 0#4 → exec i t = .next t

/-- The write sets of the commands (R108, R109, R119, R131, R142, R153, R155; R199): what no command writes, and which
commands write `CSACC`, `PB`, `OUT` and `PV`. -/
def Obligations.CommandsWriteOnlyTheirOutputs : Prop :=
  ∀ (i : Instr) (s t : State), exec i s = .next t →
    t.base = s.base ∧ t.dimw = s.dimw ∧ t.dimh = s.dimh ∧ t.pix = s.pix ∧
    t.fresh = s.fresh ∧ t.events = s.events ∧ t.answers = s.answers ∧
    (t.status.edim = true → s.status.edim = true ∨ t.status.err = 1#4) ∧
    (t.status.eaddr = true → s.status.eaddr = true ∨ t.status.err = 2#4) ∧
    t.status.eill = s.status.eill ∧
    ((i ≠ .csclr ∧ ∀ v, i ≠ .csadd v) → t.csacc = s.csacc) ∧
    ((i ≠ .pack ∧ i ≠ .convert) → t.pb = s.pb) ∧
    ((i ≠ .encode ∧ i ≠ .convert) → t.out = s.out) ∧
    ((i ≠ .unpack ∧ i ≠ .convert) → t.pv = s.pv)

/-! The checksum -/

/-- R105: the value of `CK`, and that it is the one byte that makes the sum a multiple of 256. -/
def Obligations.ChecksumIsTheOneBalancingByte : Prop :=
  ∀ s : List Byte,
    (ck s).toNat = (256 - (s.map BitVec.toNat).sum % 256) % 256 ∧
    ∀ c : Byte, ((s.map BitVec.toNat).sum + c.toNat) % 256 = 0 ↔ c = ck s

/-- R106: the accumulator holds the sum modulo 256, and the checksum is its two's complement. -/
def Obligations.AccumulatorGivesTheChecksum : Prop :=
  ∀ s : List Byte,
    (s.foldl accumulate 0x00#8).toNat = (s.map BitVec.toNat).sum % 256 ∧
    (ck s).toNat = (256 - (s.foldl accumulate 0x00#8).toNat) % 256 ∧
    ck s = ~~~ (s.foldl accumulate 0x00#8) + 1#8

/-- R107: the laws (a) to (g) of `CK`. -/
def Obligations.ChecksumLaws : Prop :=
  (∀ s : List Byte, (ck s).toNat ≤ 255) ∧
  (∀ (s : List Byte) (c : Byte), ((s.map BitVec.toNat).sum + c.toNat) % 256 = 0 ↔ c = ck s) ∧
  ck [] = 0x00#8 ∧
  (∀ s : List Byte, (s.map BitVec.toNat).sum % 256 = 0 → ck s = 0x00#8) ∧
  (∀ s : List Byte, ck (s ++ [ck s]) = 0x00#8) ∧
  (∀ s t : List Byte, (s.map BitVec.toNat).sum % 256 = (t.map BitVec.toNat).sum % 256 → ck s = ck t) ∧
  (∀ s t : List Byte, s.Perm t → ck s = ck t) ∧
  (∀ s z t : List Byte, (z.map BitVec.toNat).sum % 256 = 0 → ck (s ++ z ++ t) = ck (s ++ t)) ∧
  (∀ v : Byte, (ck [v]).toNat = (256 - v.toNat) % 256) ∧
  (∀ s t : List Byte, (ck (s ++ t)).toNat = ((ck s).toNat + (ck t).toNat) % 256)

/-- R110: after `CSCLR`, or after reset, and any moves of the host without a further `CSCLR` or reset, a read of `CSUM`
returns the checksum of the bytes pushed by the `CSADD`s among them in bits 7:0, and 0 in bits 15:8. Other commands,
illegal words and register and memory accesses may stand anywhere among the moves. -/
def Obligations.CsumReadsTheChecksumOfThePushedBytes : Prop :=
  ∀ moves : List HostMove,
    (∀ m ∈ moves, m ≠ .reset ∧ ∀ w, m = .writeReg 0#3 w → decode w ≠ .command .csclr) →
    (∀ s : State, s.status.busy = false →
      s.events = .move (.writeReg 0#3 0x0400#16) :: (moves.map .move ++ [.move (.readReg 5#3)]) →
      ∃ t v, steps (1 + moves.length + 1) s = .next t ∧ t.answers.head? = some (.reg v) ∧
        v.toNat = (ck (pushedBytes moves)).toNat) ∧
    (∃ t v, steps (moves.length + 1) { State.reset with events := moves.map .move ++ [.move (.readReg 5#3)] } = .next t ∧
      t.answers.head? = some (.reg v) ∧ v.toNat = (ck (pushedBytes moves)).toNat)

/-! Packing and unpacking -/

/-- R117 (b), (c): two states whose grids have the same pattern of on and off, whatever their `PB` held before, pack to
the same bytes. -/
def Obligations.PackDependsOnlyOnThePattern : Prop :=
  ∀ s s' : State, s.dimw = 128#16 → s.dimh = 64#16 → s'.dimw = 128#16 → s'.dimh = 64#16 →
    (∀ c r, c < 128 → r < 64 → (s.pixel c r = 0xFFFFFF#24 ↔ s'.pixel c r = 0xFFFFFF#24)) →
    ∃ t t', exec .pack s = .next t ∧ exec .pack s' = .next t' ∧ ∀ j, j < 1024 → t.packed j = t'.packed j

/-- R117 (e), (f): the all-white grid, the grid with no white pixel, and the grid with one pixel that is not white. -/
def Obligations.PackOfUniformAndSinglePixelGrids : Prop :=
  ∀ s : State, s.dimw = 128#16 → s.dimh = 64#16 →
    ∃ t, exec .pack s = .next t ∧
      ((∀ c r, c < 128 → r < 64 → s.pixel c r = 0xFFFFFF#24) → ∀ j, j < 1024 → t.packed j = 0x00#8) ∧
      ((∀ c r, c < 128 → r < 64 → s.pixel c r ≠ 0xFFFFFF#24) → ∀ j, j < 1024 → t.packed j = 0xFF#8) ∧
      (∀ c₀ r₀, c₀ < 128 → r₀ < 64 →
        (∀ c r, c < 128 → r < 64 → (s.pixel c r ≠ 0xFFFFFF#24 ↔ c = c₀ ∧ r = r₀)) →
        ∀ j, j < 1024 → t.packed j = if j = c₀ + 128 * (r₀ / 8) then BitVec.ofNat 8 (2 ^ (r₀ % 8)) else 0x00#8)

/-- R141 (b): the preview of a packed grid is 255 where the pixel was pure white and 0 elsewhere. -/
def Obligations.PackThenUnpackKeepsOnAndOff : Prop :=
  ∀ s : State, s.dimw = 128#16 → s.dimh = 64#16 →
    ∃ t, execAll [.pack, .unpack] s = .next t ∧
      ∀ c r, c < 128 → r < 64 → t.preview c r = if s.pixel c r = 0xFFFFFF#24 then 0xFF#8 else 0x00#8

/-- R141 (c), R117 (g): a buffer is packed back from its own preview, the preview value standing in all three channels
of each pixel. -/
def Obligations.PreviewPacksBackToTheBuffer : Prop :=
  ∀ s t u : State, exec .unpack s = .next t → u.dimw = 128#16 → u.dimh = 64#16 →
    (∀ c r, c < 128 → r < 64 → u.pixel c r = pixelOf (t.preview c r) (t.preview c r) (t.preview c r)) →
    ∃ v, exec .pack u = .next v ∧ ∀ j, j < 1024 → v.packed j = s.packed j

/-- R141 (a), R32: after a successful `UNPACK` or `CONVERT` every element of `PV` is 0 or 255. -/
def Obligations.PreviewIsBlackOrWhite : Prop :=
  ∀ (i : Instr) (s t : State), (i = .unpack ∨ i = .convert) → exec i s = .next t → t.status.err = 0#4 →
    ∀ c r, c < 128 → r < 64 → t.preview c r = 0x00#8 ∨ t.preview c r = 0xFF#8

/-! Records -/

/-- R127: the one check up front is the check of every record's address. -/
def Obligations.AddressCheckCoversEveryRecord : Prop :=
  ∀ base : Word,
    (addrOk base = true ↔ ∀ i, i < 64 → recordAddress base i ≤ 0xFFFF) ∧
    (addrOk base = true ↔ base.toNat ≤ 0xFC0F)

/-- R130 (a), (b), (c), (g): the lines of a successful `ENCODE` hold only the marker and uppercase digits, and read back
to the byte count 16, the address `base + 16*i`, type 0, the 16 bytes of the chunk and a checksum that makes the sum of
the 21 bytes a multiple of 256. -/
def Obligations.EncodedLinesReadBack : Prop :=
  ∀ s t : State, exec .encode s = .next t → t.status.err = 0#4 →
    ∀ i, i < 64 →
      t.outChar i 0 = 0x3A#8 ∧
      (∀ k, 1 ≤ k → k < 43 → hexValue (t.outChar i k) < 16) ∧
      t.lineByte i 0 = 16 ∧
      256 * t.lineByte i 1 + t.lineByte i 2 = s.base.toNat + 16 * i ∧
      t.lineByte i 3 = 0 ∧
      (∀ m, m < 16 → t.lineByte i (4 + m) = (s.packed (16 * i + m)).toNat) ∧
      ((List.range 21).map (t.lineByte i)).sum % 256 = 0

/-- R130 (d): a line depends only on the base, its index and the 16 bytes of its chunk. -/
def Obligations.LineDependsOnlyOnItsChunk : Prop :=
  ∀ (s s' t t' : State) (i : Nat), i < 64 → exec .encode s = .next t → exec .encode s' = .next t' →
    t.status.err = 0#4 → s.base = s'.base → (∀ m, m < 16 → s.packed (16 * i + m) = s'.packed (16 * i + m)) →
    ∀ k, k < 43 → t.outChar i k = t'.outChar i k

/-! Registers and elements -/

/-- R38: every register, the accumulator and the sequencer at their reset values, the memories with nothing listed and
their contents unspecified. -/
def Obligations.ResetValues : Prop :=
  State.reset.readRegister 0#3 = 0x0000#16 ∧ State.reset.readRegister 1#3 = 0x0000#16 ∧
  State.reset.readRegister 2#3 = 0x7140#16 ∧ State.reset.readRegister 3#3 = 0x0080#16 ∧
  State.reset.readRegister 4#3 = 0x0040#16 ∧ State.reset.readRegister 5#3 = 0x0000#16 ∧
  State.reset.status = ⟨false, false, 0#4, false, false, false⟩ ∧ State.reset.csacc = 0x00#8 ∧
  State.reset.seq = ⟨.idle, 0#3, 0#7, 0#3, 0#10, 0#6, 0#5, 0#17, 0x00#8⟩ ∧
  State.reset.pix = ⟨.unspecified .pix 0, []⟩ ∧ State.reset.pb = ⟨.unspecified .pb 0, []⟩ ∧
  State.reset.out = ⟨.unspecified .out 0, []⟩ ∧ State.reset.pv = ⟨.unspecified .pv 0, []⟩

/-- R23: the layout of `STATUS`, reserved bits 0. -/
def Obligations.StatusWordLayout : Prop :=
  ∀ st : Status,
    st.word.getLsbD 0 = st.busy ∧ st.word.getLsbD 1 = st.done ∧
    st.word.getLsbD 2 = false ∧ st.word.getLsbD 3 = false ∧
    st.word.extractLsb' 4 4 = st.err ∧
    st.word.getLsbD 8 = st.edim ∧ st.word.getLsbD 9 = st.eaddr ∧ st.word.getLsbD 10 = st.eill ∧
    st.word.extractLsb' 11 5 = 0#5

/-- R21, R22, R27, R28, R59: a read of a register of an idle core returns its value and changes nothing of the core. -/
def Obligations.RegisterReadsReturnAndChangeNothing : Prop :=
  ∀ (s : State) (n : BitVec 3) (rest : List Event),
    s.status.busy = false → s.events = .move (.readReg n) :: rest →
    ∃ v : Word, step s = .next { s with events := rest, answers := .reg v :: s.answers } ∧
      (n = 0#3 → v = 0x0000#16) ∧ (n = 1#3 → v = s.status.word) ∧ (n = 2#3 → v = s.base) ∧
      (n = 3#3 → v = s.dimw) ∧ (n = 4#3 → v = s.dimh) ∧
      (n = 5#3 → v.toNat = (256 - s.csacc.toNat) % 256) ∧ (n = 6#3 ∨ n = 7#3 → v = 0x0000#16)

/-- R21, R24, R25, R26: a write of `BASE`, `DIMW` or `DIMH` takes every value; a write of `STATUS` or `CSUM` is
ignored. -/
def Obligations.RegisterWritesTakeOrAreIgnored : Prop :=
  ∀ (s : State) (n : BitVec 3) (v : Word) (rest : List Event),
    s.status.busy = false → s.events = .move (.writeReg n v) :: rest → n ≠ 0#3 →
    step s = .next { s with
      events := rest
      base := if n = 2#3 then v else s.base
      dimw := if n = 3#3 then v else s.dimw
      dimh := if n = 4#3 then v else s.dimh }

/-- R28: the reserved registers read 0x0000 and ignore writes. -/
def Obligations.ReservedRegistersReadZeroAndIgnoreWrites : Prop :=
  ∀ (s : State) (n : BitVec 3) (v : Word) (rest : List Event), n = 6#3 ∨ n = 7#3 → s.status.busy = false →
    (s.events = .move (.readReg n) :: rest →
      step s = .next { s with events := rest, answers := .reg 0x0000#16 :: s.answers }) ∧
    (s.events = .move (.writeReg n v) :: rest → step s = .next { s with events := rest })

/-- R29, R30, R50, R59, R62, R196: a write of an element of `PIX` or `PB` is what the next read of that element returns;
after the write and the read every element of the memory reads as before but the written one, which reads as written, and
nothing else of the core changes; and a read alone returns the element and changes nothing of the core, its own memory
included. -/
def Obligations.ElementWriteIsReadBack : Prop :=
  (∀ (s : State) (c c' : BitVec 7) (r r' : BitVec 6) (v : Pixel) (rest : List Event),
    s.status.busy = false → s.events = .move (.writePix c r v) :: .move (.readPix c' r') :: rest →
    ∃ t, steps 2 s = .next t ∧
      t = { s with
        pix := t.pix
        events := rest
        answers := .pixel (if c' = c ∧ r' = r then v else s.pixel c'.toNat r'.toNat) :: s.answers } ∧
      ∀ x y, x < 128 → y < 64 → t.pixel x y = if x = c.toNat ∧ y = r.toNat then v else s.pixel x y) ∧
  (∀ (s : State) (j j' : BitVec 10) (v : Byte) (rest : List Event),
    s.status.busy = false → s.events = .move (.writePb j v) :: .move (.readPb j') :: rest →
    ∃ t, steps 2 s = .next t ∧
      t = { s with
        pb := t.pb
        events := rest
        answers := .byte (if j' = j then v else s.packed j'.toNat) :: s.answers } ∧
      ∀ x, x < 1024 → t.packed x = if x = j.toNat then v else s.packed x) ∧
  (∀ (s : State) (c : BitVec 7) (r : BitVec 6) (rest : List Event),
    s.status.busy = false → s.events = .move (.readPix c r) :: rest →
    step s = .next { s with events := rest, answers := .pixel (s.pixel c.toNat r.toNat) :: s.answers }) ∧
  (∀ (s : State) (j : BitVec 10) (rest : List Event),
    s.status.busy = false → s.events = .move (.readPb j) :: rest →
    step s = .next { s with events := rest, answers := .byte (s.packed j.toNat) :: s.answers })

/-- R31, R32, R50, R51: writes to `OUT` and `PV` are ignored; a read returns the element, and 0x00 on the `OUT` port for
k in 43..63. -/
def Obligations.ReadOnlySpacesIgnoreWritesAndRead : Prop :=
  ∀ (s : State) (i k r : BitVec 6) (c : BitVec 7) (v : Byte) (rest : List Event), s.status.busy = false →
    (s.events = .move (.writeOut i k v) :: rest → step s = .next { s with events := rest }) ∧
    (s.events = .move (.writePv c r v) :: rest → step s = .next { s with events := rest }) ∧
    (s.events = .move (.readPv c r) :: rest →
      step s = .next { s with
        events := rest
        answers := .byte (s.pv.read (128 * r.toNat + c.toNat)) :: s.answers }) ∧
    (s.events = .move (.readOut i k) :: rest →
      step s = .next { s with
        events := rest
        answers := .byte (if k.toNat < 43 then s.out.read (43 * i.toNat + k.toNat) else 0x00#8) :: s.answers })

/-! Reset and the busy core -/

/-- R190, R191 (first half): reset of an idle core gives every register its reset value and leaves the memories as they
were. `fresh`, `events` and `answers` are the model's own fields (log 1, log 3, log 4). -/
def Obligations.ResetWhileIdleKeepsTheMemories : Prop :=
  ∀ (s : State) (rest : List Event), s.seq.phase = .idle → s.events = .move .reset :: rest →
    step s = .next { State.reset with
      pix := s.pix
      pb := s.pb
      out := s.out
      pv := s.pv
      fresh := s.fresh + 1
      events := rest
      answers := s.answers }

/-- R190, R191, R38: a reset while a command is in execution, at whatever phase (those of `NOP`, `CSCLR`, `CSADD` and an
illegal word among them), abandons it: the registers take their reset values, no completion flag is written, and the four
memories hold new unspecified contents. For a memory that the command does not write that is the model's reading of R190
and R38 (log 7). `fresh`, `events` and `answers` are the model's own fields (log 1, log 3, log 4). -/
def Obligations.ResetWhileRunningAbandonsTheCommand : Prop :=
  ∀ (s : State) (rest : List Event), s.seq.phase ≠ .idle → s.events = .move .reset :: rest →
    step s = .next { State.reset with
      pix := ⟨.unspecified .pix s.fresh, []⟩
      pb := ⟨.unspecified .pb s.fresh, []⟩
      out := ⟨.unspecified .out s.fresh, []⟩
      pv := ⟨.unspecified .pv s.fresh, []⟩
      fresh := s.fresh + 1
      events := rest
      answers := s.answers }

/-- R196, R149: acceptance sets `BUSY` and leaves every other field of `STATUS`; a read of `STATUS` while a command runs
returns its word, with bit 0 set, and changes nothing of the core; and no elementary step that leaves the command running
changes `STATUS`. -/
def Obligations.StatusReadWhileBusyShowsBusy : Prop :=
  (∀ (s : State) (w : Word) (rest : List Event), s.status.busy = false → s.events = .start w :: rest →
    ∃ t, step s = .next t ∧ t.status = { s.status with busy := true } ∧ t.events = rest) ∧
  (∀ (s : State) (rest : List Event), s.status.busy = true → s.events = .move (.readReg 1#3) :: rest →
    step s = .next { s with events := rest, answers := .reg s.status.word :: s.answers } ∧
      s.status.word.getLsbD 0 = true) ∧
  (∀ s t : State, s.status.busy = true → (s.events = [] ∨ ∃ rest, s.events = .tick :: rest) → step s = .next t →
    t.status.busy = true → t.status = s.status)

/-- R171, R23: no step other than a reset clears `DONE` or a sticky bit. -/
def Obligations.OnlyResetClearsDoneAndTheStickyBits : Prop :=
  ∀ s t : State, step s = .next t → (∀ rest, s.events ≠ .move .reset :: rest) →
    (s.status.done = true → t.status.done = true) ∧ (s.status.edim = true → t.status.edim = true) ∧
    (s.status.eaddr = true → t.status.eaddr = true) ∧ (s.status.eill = true → t.status.eill = true)

/-- R171, R204: a step in which no command fails keeps the premise "no command has failed", and one in which a command
fails ends it. -/
def Obligations.StickyBitsRecordEveryFailure : Prop :=
  ∀ (s t : State) (w : Word) (rest : List Event), s.status.busy = false →
    s.events = .move (.writeReg 0#3 w) :: rest → step s = .next t → s.noCommandFailed →
    (t.noCommandFailed ↔ t.status.err = 0#4)

/-! The invariant -/

/-- The invariant holds after reset. -/
def Obligations.ResetMeetsTheMachineInvariant : Prop := State.reset.Inv

/-- Every step keeps the invariant: memories canonical, `ERR` a code the core may write (R166, R168), failures recorded
(R171), `BUSY` true to the sequencer (R149), the sequencer as R36 and R132 say it is at its phase. -/
def Obligations.StepKeepsTheMachineInvariant : Prop :=
  ∀ s t : State, s.Inv → step s = .next t → t.Inv

/-! The elementary steps reach the whole effect (R150, R152) -/

/-- R149, R150: the commands that have no loop, and an illegal word. -/
def Obligations.LooplessCommandsReachTheirWholeEffect : Prop :=
  ∀ (s : State) (w : Word), s.status.busy = false → s.events = [.start w] →
    (decode w = .command .nop → ∃ n, ∀ m, n ≤ m → steps m s = exec .nop { s with events := [] }) ∧
    (decode w = .command .csclr → ∃ n, ∀ m, n ≤ m → steps m s = exec .csclr { s with events := [] }) ∧
    (∀ v, decode w = .command (.csadd v) →
      ∃ n, ∀ m, n ≤ m → steps m s = exec (.csadd v) { s with events := [] }) ∧
    (∀ e, decode w = .illegal e → ∃ n, ∀ m, n ≤ m → steps m s =
      .next { s with
        status := { s.status with busy := false, done := true, err := 4#4, eill := true }
        seq := Seq.idle
        events := [] })

/-- R120, R152: `PACK` in elementary steps ends in the state of `PACK` taken whole. -/
def Obligations.PackStepsReachTheWholeEffect : Prop :=
  ∀ s : State, s.Inv → s.status.busy = false → s.events = [.start 0x0100#16] →
    ∃ n, ∀ m, n ≤ m → steps m s = exec .pack { s with events := [] }

/-- R132, R152: `ENCODE` in elementary steps ends in the state of `ENCODE` taken whole. -/
def Obligations.EncodeStepsReachTheWholeEffect : Prop :=
  ∀ s : State, s.Inv → s.status.busy = false → s.events = [.start 0x0200#16] →
    ∃ n, ∀ m, n ≤ m → steps m s = exec .encode { s with events := [] }

/-- R143, R152: `UNPACK` in elementary steps ends in the state of `UNPACK` taken whole. -/
def Obligations.UnpackStepsReachTheWholeEffect : Prop :=
  ∀ s : State, s.Inv → s.status.busy = false → s.events = [.start 0x0300#16] →
    ∃ n, ∀ m, n ≤ m → steps m s = exec .unpack { s with events := [] }

/-- R155, R152: `CONVERT` in elementary steps ends in the state of `CONVERT` taken whole. -/
def Obligations.ConvertStepsReachTheWholeEffect : Prop :=
  ∀ s : State, s.Inv → s.status.busy = false → s.events = [.start 0x0600#16] →
    ∃ n, ∀ m, n ≤ m → steps m s = exec .convert { s with events := [] }

/-! Host programs -/

/-- R81: a line's moves. Commands are writes of `CMD` with a word that decodes to them; `WR` and `RD` reach the register
of their name (R21) with the value as written; `WRM` and `RDM` reach the element of their index; pseudo-instructions
expand as the rule says; `FILL` writes every element once, in increasing linear index. R81 gives `WR` for `BASE`, `DIMW`,
`DIMH` and `CMD`; that `WR` may name `STATUS` and `CSUM` too is the model's choice (log 17). -/
def Obligations.AssemblerLinesExpandToHostMoves : Prop :=
  (∀ i, ∃ w, (Line.command i).moves = [.writeReg 0#3 w] ∧ decode w = .command i) ∧
  (∀ v, v < 256 → ∃ w, (Line.csadd v).moves = [.writeReg 0#3 w] ∧ decode w = .command (.csadd (BitVec.ofNat 8 v))) ∧
  (∀ v, v < 65536 → ∀ x ∈ [(RegName.cmd, 0#3), (.status, 1#3), (.base, 2#3), (.dimw, 3#3), (.dimh, 4#3), (.csum, 5#3)],
    (∃ w : Word, (Line.wr x.1 v).moves = [.writeReg x.2 w] ∧ w.toNat = v) ∧ (Line.rd x.1).moves = [.readReg x.2]) ∧
  (∀ vs, (Line.csum vs).moves
    = (Line.command .csclr).moves ++ vs.flatMap (fun v => (Line.csadd v).moves) ++ (Line.rd .csum).moves) ∧
  (∀ v, (Line.setbase v).moves = (Line.wr .base v).moves) ∧
  (∀ w h, (Line.setdim w h).moves = (Line.wr .dimw w).moves ++ (Line.wr .dimh h).moves) ∧
  (∀ c r v, (Line.wrm (.pix c r) v).wf = true → ∃ c' r' v', (Line.wrm (.pix c r) v).moves = [.writePix c' r' v'] ∧
    c'.toNat = c ∧ r'.toNat = r ∧ v'.toNat = v) ∧
  (∀ j v, (Line.wrm (.pb j) v).wf = true → ∃ j' v', (Line.wrm (.pb j) v).moves = [.writePb j' v'] ∧
    j'.toNat = j ∧ v'.toNat = v) ∧
  (∀ c r, (Line.rdm (.pix c r)).wf = true → ∃ c' r', (Line.rdm (.pix c r)).moves = [.readPix c' r'] ∧
    c'.toNat = c ∧ r'.toNat = r) ∧
  (∀ j, (Line.rdm (.pb j)).wf = true → ∃ j', (Line.rdm (.pb j)).moves = [.readPb j'] ∧ j'.toNat = j) ∧
  (∀ i k, (Line.rdm (.out i k)).wf = true → ∃ i' k', (Line.rdm (.out i k)).moves = [.readOut i' k'] ∧
    i'.toNat = i ∧ k'.toNat = k) ∧
  (∀ c r, (Line.rdm (.pv c r)).wf = true → ∃ c' r', (Line.rdm (.pv c r)).moves = [.readPv c' r'] ∧
    c'.toNat = c ∧ r'.toNat = r) ∧
  (∀ v, (Line.fill .pb v).moves = (List.range 1024).map fun a => .writePb (BitVec.ofNat 10 a) (BitVec.ofNat 8 v)) ∧
  (∀ v, (Line.fill .pix v).moves = (List.range 8192).map fun a =>
    .writePix (BitVec.ofNat 7 (a % 128)) (BitVec.ofNat 6 (a / 128)) (BitVec.ofNat 24 v))
end

