-- ==== Sys2Proof/Laws/Checksum.lean ====
section
/-! SUPPORT. The laws of sums and of the accumulator (R105, R106). -/

namespace Sys2Proof.Machine

@[simp] theorem byteSum_nil : byteSum [] = 0 := rfl
@[simp] theorem byteSum_cons (v : Byte) (s : List Byte) : byteSum (v :: s) = v.toNat + byteSum s := rfl

@[simp] theorem byteSum_append (s t : List Byte) : byteSum (s ++ t) = byteSum s + byteSum t := by
  induction s with
  | nil => simp
  | cons v s ih => simp [ih, Nat.add_assoc]

theorem ck_toNat (s : List Byte) : (ck s).toNat = (256 - byteSum s % 256) % 256 := by
  simp [ck, BitVec.toNat_ofNat]

@[simp] theorem accumulate_toNat (acc v : Byte) : (accumulate acc v).toNat = (acc.toNat + v.toNat) % 256 := by
  simp [accumulate, BitVec.toNat_ofNat]

@[simp] theorem ckOfAcc_toNat (acc : Byte) : (ckOfAcc acc).toNat = (256 - acc.toNat) % 256 := by
  simp [ckOfAcc, BitVec.toNat_ofNat]

/-- The accumulator after a sequence of bytes, from any start (R106). -/
theorem foldl_accumulate_toNat (s : List Byte) (acc : Byte) :
    (s.foldl accumulate acc).toNat = (acc.toNat + byteSum s) % 256 := by
  induction s generalizing acc with
  | nil => have := acc.isLt; simp; omega
  | cons v s ih => simp [ih]; omega

/-- An accumulator that holds the sum modulo 256 gives the checksum (R106). -/
theorem ckOfAcc_of_sum (acc : Byte) (s : List Byte) (h : acc.toNat = byteSum s % 256) : ckOfAcc acc = ck s := by
  apply BitVec.eq_of_toNat_eq
  rw [ckOfAcc_toNat, ck_toNat, h]

/-- `CSUM` reads the checksum of an accumulator, zero extended (R27). -/
theorem csumWord_eq (acc : Byte) : csumWord acc = (ckOfAcc acc).setWidth 16 := by
  apply BitVec.eq_of_toNat_eq
  have := acc.isLt
  simp only [csumWord, BitVec.toNat_ofNat, BitVec.toNat_setWidth, ckOfAcc_toNat]

end Sys2Proof.Machine
end

