-- ==== Sys2Proof/Laws/Decode.lean ====
section
/-! SUPPORT. The fields of a command word and the decoder said as cases (R75, R79). -/

namespace Sys2Proof

theorem opcodeOf_toNat (w : Word) : (opcodeOf w).toNat = w.toNat / 256 := by
  have := w.isLt
  simp only [opcodeOf, BitVec.extractLsb'_toNat, Nat.shiftRight_eq_div_pow]
  omega

theorem argOf_toNat (w : Word) : (argOf w).toNat = w.toNat % 256 := by
  simp [argOf, BitVec.extractLsb'_toNat]

/-- A word is its opcode and its low byte (R75). -/
theorem word_eq_append (w : Word) : w = opcodeOf w ++ argOf w := by
  apply BitVec.eq_of_toNat_eq
  rw [BitVec.toNat_append, opcodeOf_toNat, argOf_toNat, Nat.shiftLeft_eq,
    ← Nat.shiftLeft_eq, ← Nat.shiftLeft_add_eq_or_of_lt (by omega), Nat.shiftLeft_eq]
  omega

@[simp] theorem opcodeOf_append (op arg : Byte) : opcodeOf (op ++ arg) = op := by
  apply BitVec.eq_of_toNat_eq
  have ha := arg.isLt
  rw [opcodeOf_toNat, BitVec.toNat_append, ← Nat.shiftLeft_add_eq_or_of_lt ha, Nat.shiftLeft_eq]
  omega

@[simp] theorem argOf_append (op arg : Byte) : argOf (op ++ arg) = arg := by
  apply BitVec.eq_of_toNat_eq
  have ha := arg.isLt
  rw [argOf_toNat, BitVec.toNat_append, ← Nat.shiftLeft_add_eq_or_of_lt ha, Nat.shiftLeft_eq]
  omega

/-- The opcode of each format N command (R77). -/
theorem formatN_eq_some {op : Byte} {i : Instr} (h : formatN op = some i) :
    (op = 0x00#8 ∧ i = .nop) ∨ (op = 0x01#8 ∧ i = .pack) ∨ (op = 0x02#8 ∧ i = .encode) ∨
    (op = 0x03#8 ∧ i = .unpack) ∨ (op = 0x04#8 ∧ i = .csclr) ∨ (op = 0x06#8 ∧ i = .convert) := by
  unfold formatN at h
  repeat' split at h
  all_goals simp_all

/-- The words that decode to a command: the opcode of `CSADD` with any low byte, or a format N opcode with low byte 0. -/
theorem decode_command_cases {w : Word} {i : Instr} (h : decode w = .command i) :
    (opcodeOf w = 0x05#8 ∧ i = .csadd (argOf w)) ∨
    (opcodeOf w ≠ 0x05#8 ∧ argOf w = 0x00#8 ∧ formatN (opcodeOf w) = some i) := by
  unfold decode at h
  split at h
  · rename_i h5
    injection h with h
    exact .inl ⟨h5, h.symm⟩
  · rename_i h5
    split at h
    · exact absurd h (by simp)
    · rename_i j hj
      split at h
      · rename_i h0
        injection h with h
        exact .inr ⟨h5, h0, h ▸ hj⟩
      · exact absurd h (by simp)

/-- A word decodes to exactly one of a command and a rejection (R79 "total and unambiguous"). -/
theorem decode_illegal_or_command (w : Word) : (∃ i, decode w = .command i) ∨ (∃ e, decode w = .illegal e) := by
  cases h : decode w with
  | command i => exact .inl ⟨i, rfl⟩
  | illegal e => exact .inr ⟨e, rfl⟩

end Sys2Proof
end

