-- ==== Sys2Proof/Laws/Profile.lean ====
section
/-! SUPPORT. The profile (R7) at its one admitted value, and the definitions that read it said with its numbers, each true
by `rfl`. Proofs cite these and never unfold the profile. -/

namespace Sys2Proof

@[simp] theorem Config.width_eq : Config.width = 128 := rfl
@[simp] theorem Config.height_eq : Config.height = 64 := rfl
@[simp] theorem Config.blockRows_eq : Config.blockRows = 8 := rfl
@[simp] theorem Config.blocks_eq : Config.blocks = 8 := rfl
@[simp] theorem Config.packedLen_eq : Config.packedLen = 1024 := rfl
@[simp] theorem Config.chunk_eq : Config.chunk = 16 := rfl
@[simp] theorem Config.records_eq : Config.records = 64 := rfl
@[simp] theorem Config.lineLen_eq : Config.lineLen = 43 := rfl
@[simp] theorem Config.gridLen_eq : Config.gridLen = 8192 := rfl
@[simp] theorem Config.outLen_eq : Config.outLen = 2752 := rfl
@[simp] theorem Config.contentLen_eq : Config.contentLen = 20 := rfl
@[simp] theorem Config.lastBase_eq : Config.lastBase = 0xFC0F := rfl
@[simp] theorem Config.recordType_eq : Config.recordType = 0x00#8 := rfl
@[simp] theorem Config.byteCount_eq : Config.byteCount = 0x10#8 := rfl
@[simp] theorem Config.baseDefault_eq : Config.baseDefault = 0x7140#16 := rfl
@[simp] theorem Config.dimwDefault_eq : Config.dimwDefault = 0x0080#16 := rfl
@[simp] theorem Config.dimhDefault_eq : Config.dimhDefault = 0x0040#16 := rfl
@[simp] theorem Config.previewOn_eq : Config.previewOn = 0x00#8 := rfl
@[simp] theorem Config.previewOff_eq : Config.previewOff = 0xFF#8 := rfl

/-- The parameters that R7 derives from others, and the widths that types carry. -/
theorem Config.device_consistent :
    Config.device.blocks = Config.device.height / Config.device.blockRows ∧
    Config.device.packedLen = Config.device.blocks * Config.device.width ∧
    Config.device.records = Config.device.packedLen / Config.device.chunk ∧
    Config.device.lineLen = 1 + 2 * (4 + Config.device.chunk + 1) ∧
    Config.device.addrBits = 16 ∧ Config.device.channelBits = 8 ∧
    Config.device.channels * Config.device.channelBits = 24 := by decide

namespace Machine

/-- `ON` (R115): on is every pixel but pure white. -/
theorem on_eq (p : Pixel) : on p = (p != 0xFFFFFF#24) := rfl

theorem packedIndex_eq (b c : Nat) : packedIndex b c = c + 128 * b := rfl

theorem gridIndex_eq (c r : Nat) : gridIndex c r = 128 * r + c := rfl

theorem outIndex_eq (i k : Nat) : outIndex i k = 43 * i + k := rfl

theorem State.dimOk_eq (s : State) : s.dimOk = (s.dimw == 128#16 && s.dimh == 64#16) := rfl

theorem recordAddress_eq (base : Word) (i : Nat) : recordAddress base i = base.toNat + 16 * i := rfl

theorem addrOk_eq (base : Word) : addrOk base = decide (base.toNat ≤ 0xFC0F) := rfl

theorem packByte_eq (G : Nat → Nat → Pixel) (j : Nat) :
    packByte G j = BitVec.ofNat 8 (bitSum (fun y => on (G (j % 128) (8 * (j / 128) + bitRow y))) 8) := rfl

theorem previewPixel_eq (P : Nat → Byte) (c r : Nat) :
    previewPixel P c r = previewOf ((P (packedIndex (r / 8) c)).getLsbD (rowBit (r % 8))) := rfl

theorem previewOf_eq (bit : Bool) : previewOf bit = if bit then 0x00#8 else 0xFF#8 := rfl

theorem recordContent_eq (base : Word) (P : Nat → Byte) (i : Nat) :
    recordContent base P i =
      [0x10#8, BitVec.ofNat 8 (recordAddress base i / 256), BitVec.ofNat 8 (recordAddress base i % 256), 0x00#8]
        ++ (List.range 16).map fun m => P (16 * i + m) := rfl

theorem Seq.y_eq (q : Seq) : q.y = 7 - q.row.toNat := rfl

theorem Seq.rowPlace_eq (q : Seq) : q.rowPlace = 8 * q.b.toNat + bitRow q.y := rfl

theorem Seq.lastPlace_eq (q : Seq) : q.lastPlace = (q.b == 7#3 && q.c == 127#7 && q.row == 7#3) := rfl

theorem Seq.nextPlace_eq (q : Seq) :
    q.nextPlace =
      if q.row == 7#3 then
        if q.c == 127#7 then { q with row := 0#3, c := 0#7, b := q.b + 1#3 }
        else { q with row := 0#3, c := q.c + 1#7 }
      else { q with row := q.row + 1#3 } := rfl

theorem State.outChar_eq (s : State) (i k : Nat) :
    s.outChar i k = if k < 43 then s.out.read (outIndex i k) else 0x00#8 := rfl

theorem State.tickClear_eq (conv : Bool) (s : State) :
    s.tickClear conv =
      if s.seq.j == 1023#10 then { s with pb := s.pb.write s.seq.j.toNat 0x00#8, seq := Seq.enter (.scan conv) }
      else { s with pb := s.pb.write s.seq.j.toNat 0x00#8, seq := { s.seq with j := s.seq.j + 1#10 } } := rfl

theorem State.emitByte_eq (s : State) :
    s.emitByte =
      match s.seq.k.toNat with
      | 0 => 0x10#8
      | 1 => s.seq.addr17.extractLsb' 8 8
      | 2 => s.seq.addr17.extractLsb' 0 8
      | 3 => 0x00#8
      | k => if k < 20 then s.packed (16 * s.seq.i.toNat + (k - 4)) else ckOfAcc s.seq.rsum := rfl

theorem State.tickEmit_eq (conv : Bool) (s : State) :
    s.tickEmit conv =
      if s.seq.k.toNat < 20 then
        { s.emitDigits with seq := { s.seq with k := s.seq.k + 1#5, rsum := accumulate s.seq.rsum s.emitByte } }
      else if s.seq.i == 63#6 then
        (if conv then { s.emitDigits with seq := Seq.enter (.rebuild true) } else s.emitDigits.complete)
      else
        { s.emitDigits with
          seq := { s.seq with phase := .load conv, k := 0#5, i := s.seq.i + 1#6, addr17 := s.seq.addr17 + 16#17 } } := rfl

/-! The checks on element indices (R50, R81) -/

@[simp] theorem ElementRef.wf_pix (c r : Nat) : (ElementRef.pix c r).wf = (decide (c < 128) && decide (r < 64)) := rfl
@[simp] theorem ElementRef.wf_pb (j : Nat) : (ElementRef.pb j).wf = decide (j < 1024) := rfl
@[simp] theorem ElementRef.wf_out (i k : Nat) : (ElementRef.out i k).wf = (decide (i < 64) && decide (k < 43)) := rfl
@[simp] theorem ElementRef.wf_pv (c r : Nat) : (ElementRef.pv c r).wf = (decide (c < 128) && decide (r < 64)) := rfl

end Machine
end Sys2Proof
end

