-- ==== Sys2Proof/Laws/Encode.lean ====
section
/-! SUPPORT. The bytes of a record and the characters of a line (R89 to R92). -/

namespace Sys2Proof.Machine

@[simp] theorem recordContent_length (base : Word) (P : Nat → Byte) (i : Nat) :
    (recordContent base P i).length = 20 := by simp [recordContent_eq]

@[simp] theorem recordBytes_length (base : Word) (P : Nat → Byte) (i : Nat) :
    (recordBytes base P i).length = 21 := by simp [recordBytes]

/-- The characters of a flattened list of digit pairs. -/
theorem getD_flatMap_hexPair (l : List Byte) (n : Nat) (h : n < l.length) :
    (l.flatMap hexPair).getD (2 * n) 0#8 = hexDigit ((l.getD n 0#8).toNat / 16) ∧
    (l.flatMap hexPair).getD (2 * n + 1) 0#8 = hexDigit ((l.getD n 0#8).toNat % 16) := by
  induction l generalizing n with
  | nil => simp at h
  | cons v l ih =>
    cases n with
    | zero => simp [hexPair]
    | succ n =>
      have := ih n (by simpa using h)
      simpa [hexPair, Nat.mul_add] using this

@[simp] theorem lineChar_zero (base : Word) (P : Nat → Byte) (i : Nat) : lineChar base P i 0 = colon := rfl

/-- The high digit of byte `n` of record `i` (R92). -/
theorem lineChar_high (base : Word) (P : Nat → Byte) (i : Nat) {n : Nat} (h : n < 21) :
    lineChar base P i (1 + 2 * n) = hexDigit (((recordBytes base P i).getD n 0#8).toNat / 16) := by
  rw [← (getD_flatMap_hexPair (recordBytes base P i) n (by simpa using h)).1, Nat.add_comm]
  rfl

/-- The low digit of byte `n` of record `i` (R92). -/
theorem lineChar_low (base : Word) (P : Nat → Byte) (i : Nat) {n : Nat} (h : n < 21) :
    lineChar base P i (2 + 2 * n) = hexDigit (((recordBytes base P i).getD n 0#8).toNat % 16) := by
  rw [← (getD_flatMap_hexPair (recordBytes base P i) n (by simpa using h)).2,
    show 2 + 2 * n = (2 * n + 1) + 1 by omega]
  rfl

/-- The content byte `n` of a record (R89). -/
theorem recordBytes_getD_content (base : Word) (P : Nat → Byte) (i : Nat) {n : Nat} (h : n < 20) :
    (recordBytes base P i).getD n 0#8 = (recordContent base P i).getD n 0#8 := by
  unfold recordBytes
  rw [List.getD_append _ _ _ _ (by simpa using h)]

@[simp] theorem recordBytes_getD_count (base : Word) (P : Nat → Byte) (i : Nat) :
    (recordBytes base P i).getD 0 0#8 = 0x10#8 := rfl

@[simp] theorem recordBytes_getD_high (base : Word) (P : Nat → Byte) (i : Nat) :
    (recordBytes base P i).getD 1 0#8 = BitVec.ofNat 8 (recordAddress base i / 256) := rfl

@[simp] theorem recordBytes_getD_low (base : Word) (P : Nat → Byte) (i : Nat) :
    (recordBytes base P i).getD 2 0#8 = BitVec.ofNat 8 (recordAddress base i % 256) := rfl

@[simp] theorem recordBytes_getD_type (base : Word) (P : Nat → Byte) (i : Nat) :
    (recordBytes base P i).getD 3 0#8 = 0x00#8 := rfl

/-- Data byte `m` of record `i` (R89). -/
theorem recordBytes_getD_data (base : Word) (P : Nat → Byte) (i : Nat) {m : Nat} (h : m < 16) :
    (recordBytes base P i).getD (4 + m) 0#8 = P (16 * i + m) := by
  rw [recordBytes_getD_content _ _ _ (by omega)]
  simp only [recordContent_eq]
  rw [List.getD_append_right _ _ _ _ (by simp)]
  simp [h]

/-- The checksum byte of record `i` (R89, R128). -/
@[simp] theorem recordBytes_getD_checksum (base : Word) (P : Nat → Byte) (i : Nat) :
    (recordBytes base P i).getD 20 0#8 = ck (recordContent base P i) := by
  unfold recordBytes
  rw [List.getD_append_right _ _ _ _ (by simp)]
  simp

/-- The sum of the content bytes of a record. -/
theorem byteSum_recordContent (base : Word) (P : Nat → Byte) (i : Nat) :
    byteSum (recordContent base P i) =
      16 + (recordAddress base i / 256) % 256 + recordAddress base i % 256 +
        byteSum ((List.range 16).map fun m => P (16 * i + m)) := by
  simp only [recordContent_eq]
  rw [byteSum_append]
  simp [byteSum, BitVec.toNat_ofNat]
  omega

/-- All addresses of a legal base fit in 16 bits (R127). -/
theorem recordAddress_le {base : Word} {i : Nat} (h : addrOk base = true) (hi : i < 64) :
    recordAddress base i ≤ 0xFFFF := by
  simp [addrOk_eq] at h
  simp only [recordAddress_eq]
  omega

/-- A record depends on its own chunk only (R130 (d)). -/
theorem recordContent_congr {base : Word} {P Q : Nat → Byte} {i : Nat}
    (h : ∀ m, m < 16 → P (16 * i + m) = Q (16 * i + m)) : recordContent base P i = recordContent base Q i := by
  simp only [recordContent_eq]
  congr 1
  apply List.map_congr_left
  intro m hm
  exact h m (by simpa using hm)

theorem lineChar_congr {base : Word} {P Q : Nat → Byte} {i : Nat}
    (h : ∀ m, m < 16 → P (16 * i + m) = Q (16 * i + m)) (k : Nat) : lineChar base P i k = lineChar base Q i k := by
  simp [lineChar, lineText, recordBytes, recordContent_congr h]

end Sys2Proof.Machine
end

