-- ==== Sys2Proof/Laws/Memory.lean ====
section
/-! SUPPORT. The laws of the memories: read after write, the canonical form, and that canonical memories with the same
listed cells are equal data. -/

namespace Sys2Proof.Machine

variable {w : Nat}

/-! Cells -/

theorem cellAt_insertCell_same (cells : List (Nat × BitVec w)) (a : Nat) (v : BitVec w) :
    cellAt (insertCell cells a v) a = some v := by
  induction cells with
  | nil => simp [insertCell, cellAt]
  | cons x rest ih =>
    obtain ⟨k, u⟩ := x
    simp only [insertCell]
    split
    · simp [cellAt]
    · split
      · simp [cellAt]
      · rename_i h1 h2
        have hk : k ≠ a := fun h => h2 h.symm
        simp [cellAt, hk, ih]

theorem cellAt_insertCell_other (cells : List (Nat × BitVec w)) {a b : Nat} (v : BitVec w) (h : b ≠ a) :
    cellAt (insertCell cells a v) b = cellAt cells b := by
  induction cells with
  | nil => simp [insertCell, cellAt, Ne.symm h]
  | cons x rest ih =>
    obtain ⟨k, u⟩ := x
    simp only [insertCell]
    split
    · simp [cellAt, Ne.symm h]
    · split
      · rename_i h1 h2
        subst h2
        simp [cellAt, Ne.symm h]
      · simp only [cellAt, ih]

theorem cellAt_eraseCell_same (cells : List (Nat × BitVec w)) (a : Nat) : cellAt (eraseCell cells a) a = none := by
  induction cells with
  | nil => simp [eraseCell, cellAt]
  | cons x rest ih =>
    obtain ⟨k, u⟩ := x
    simp only [eraseCell] at ih ⊢
    by_cases h : k = a
    · simp [h, ih]
    · simp [h, cellAt, ih]

theorem cellAt_eraseCell_other (cells : List (Nat × BitVec w)) {a b : Nat} (h : b ≠ a) :
    cellAt (eraseCell cells a) b = cellAt cells b := by
  induction cells with
  | nil => simp [eraseCell, cellAt]
  | cons x rest ih =>
    obtain ⟨k, u⟩ := x
    simp only [eraseCell] at ih ⊢
    by_cases hk : k = a
    · subst hk
      simp [cellAt, ih, Ne.symm h]
    · simp [hk, cellAt, ih]

/-! Reads and writes -/

@[simp] theorem Memory.write_background (m : Memory w) (a : Nat) (v : BitVec w) :
    (m.write a v).background = m.background := by
  unfold Memory.write; split <;> rfl

@[simp] theorem Memory.writeAll_background (m : Memory w) (n : Nat) (f : Nat → BitVec w) :
    (m.writeAll n f).background = m.background := rfl

/-- What a write lists: nothing where the background is known to hold the value, the value elsewhere. -/
def Background.entry (bg : Background w) (v : BitVec w) : Option (BitVec w) := if bg.lists v then some v else none

theorem Memory.unlisted_of_not_lists (m : Memory w) (a : Nat) (v : BitVec w) (h : ¬ m.background.lists v = true) :
    m.unlisted a = v := by
  unfold Memory.unlisted
  unfold Background.lists at h
  cases hb : m.background with
  | unspecified sp n => simp [hb] at h
  | filled u => simp [hb] at h; simp [h]

theorem Memory.cellAt_write_same (m : Memory w) (a : Nat) (v : BitVec w) :
    cellAt (m.write a v).cells a = m.background.entry v := by
  unfold Memory.write Background.entry
  split <;> simp [cellAt_insertCell_same, cellAt_eraseCell_same]

theorem Memory.cellAt_write_other (m : Memory w) {a b : Nat} (v : BitVec w) (h : b ≠ a) :
    cellAt (m.write a v).cells b = cellAt m.cells b := by
  unfold Memory.write
  split <;> simp [cellAt_insertCell_other, cellAt_eraseCell_other, h]

/-- A read is the entry of the listed cell, or what the background gives. -/
theorem Memory.read_of_entry (m : Memory w) (a : Nat) (v : BitVec w) (h : cellAt m.cells a = m.background.entry v) :
    m.read a = v := by
  unfold Memory.read
  rw [h]
  unfold Background.entry
  by_cases hl : m.background.lists v = true
  · simp [hl]
  · simp [hl, m.unlisted_of_not_lists a v hl]

@[simp] theorem Memory.read_write_same (m : Memory w) (a : Nat) (v : BitVec w) : (m.write a v).read a = v :=
  Memory.read_of_entry _ a v (by simp [m.cellAt_write_same a v])

theorem Memory.read_write_other (m : Memory w) {a b : Nat} (v : BitVec w) (h : b ≠ a) :
    (m.write a v).read b = m.read b := by
  have hu : (m.write a v).unlisted b = m.unlisted b := by simp [Memory.unlisted]
  unfold Memory.read
  rw [m.cellAt_write_other v h, hu]

theorem Memory.read_write (m : Memory w) (a b : Nat) (v : BitVec w) :
    (m.write a v).read b = if b = a then v else m.read b := by
  by_cases h : b = a
  · subst h; simp
  · simp [h, m.read_write_other v h]

/-- One lookup in the cells that `writeAll` lists. -/
theorem cellAt_filterMap_range (bg : Background w) (f : Nat → BitVec w) (n s a : Nat) :
    cellAt ((List.range' s n).filterMap fun x => if bg.lists (f x) then some (x, f x) else none) a
      = if s ≤ a ∧ a < s + n then bg.entry (f a) else none := by
  induction n generalizing s with
  | zero => simp [cellAt]
  | succ n ih =>
    rw [List.range'_succ]
    by_cases hl : bg.lists (f s) = true
    · simp only [List.filterMap_cons, hl, if_true, cellAt, ih]
      by_cases ha : s = a
      · subst ha; simp [Background.entry, hl]
      · simp only [ha, if_false]
        congr 1
        apply propext; omega
    · rw [List.filterMap_cons_none (by simp [hl]), ih]
      by_cases ha : s = a
      · subst ha; simp [Background.entry, hl]
      · congr 1
        apply propext; omega

theorem Memory.cellAt_writeAll (m : Memory w) (n : Nat) (f : Nat → BitVec w) (a : Nat) :
    cellAt (m.writeAll n f).cells a = if a < n then m.background.entry (f a) else none := by
  unfold Memory.writeAll
  rw [cellAt_filterMap_range]
  simp

/-- A whole write reads back everywhere (R119, R131, R142). -/
theorem Memory.read_writeAll (m : Memory w) {n a : Nat} (f : Nat → BitVec w) (h : a < n) :
    (m.writeAll n f).read a = f a :=
  Memory.read_of_entry _ a (f a) (by simp [m.cellAt_writeAll, h])

/-! The canonical form -/

theorem mem_insertCell {cells : List (Nat × BitVec w)} {a : Nat} {v : BitVec w} {x : Nat × BitVec w}
    (h : x ∈ insertCell cells a v) : x = (a, v) ∨ x ∈ cells := by
  induction cells with
  | nil => simpa [insertCell] using h
  | cons y rest ih =>
    obtain ⟨k, u⟩ := y
    simp only [insertCell] at h
    split at h
    · simpa using h
    · split at h
      · rcases List.mem_cons.mp h with h | h
        · exact .inl h
        · exact .inr (List.mem_cons_of_mem _ h)
      · rcases List.mem_cons.mp h with h | h
        · exact .inr (h ▸ List.mem_cons_self)
        · rcases ih h with h | h
          · exact .inl h
          · exact .inr (List.mem_cons_of_mem _ h)

theorem insertCell_pairwise {cells : List (Nat × BitVec w)} (a : Nat) (v : BitVec w)
    (h : cells.Pairwise (fun x y => x.1 < y.1)) : (insertCell cells a v).Pairwise (fun x y => x.1 < y.1) := by
  induction cells with
  | nil => simp [insertCell]
  | cons y rest ih =>
    obtain ⟨k, u⟩ := y
    rw [List.pairwise_cons] at h
    obtain ⟨hhead, htail⟩ := h
    simp only [insertCell]
    split
    · rename_i hlt
      refine List.pairwise_cons.mpr ⟨?_, List.pairwise_cons.mpr ⟨hhead, htail⟩⟩
      intro x hx
      rcases List.mem_cons.mp hx with hx | hx
      · subst hx; exact hlt
      · exact Nat.lt_trans hlt (hhead x hx)
    · split
      · rename_i hlt heq
        subst heq
        exact List.pairwise_cons.mpr ⟨hhead, htail⟩
      · refine List.pairwise_cons.mpr ⟨?_, ih htail⟩
        intro x hx
        rcases mem_insertCell hx with hx | hx
        · subst hx; simp; omega
        · exact hhead x hx

/-- A write inside the memory keeps the canonical form. -/
theorem Memory.write_wf {n : Nat} {m : Memory w} {a : Nat} (v : BitVec w) (hm : m.wf n) (ha : a < n) :
    (m.write a v).wf n := by
  obtain ⟨hp, hc⟩ := hm
  refine ⟨?_, ?_⟩
  · unfold Memory.write
    split
    · exact insertCell_pairwise a v hp
    · exact List.Pairwise.filter _ hp
  · intro x hx
    rw [Memory.write_background]
    unfold Memory.write at hx
    split at hx
    · rename_i hl
      rcases mem_insertCell hx with hx | hx
      · subst hx; exact ⟨ha, hl⟩
      · exact hc x hx
    · exact hc x (List.mem_of_mem_filter hx)

/-- A whole write leaves a canonical memory, whatever stood there before. -/
theorem Memory.writeAll_wf (n : Nat) (m : Memory w) (f : Nat → BitVec w) : (m.writeAll n f).wf n := by
  refine ⟨?_, ?_⟩
  · have hr : (List.range' 0 n).Pairwise (· < ·) := List.pairwise_lt_range'
    unfold Memory.writeAll
    refine List.Pairwise.filterMap _ ?_ hr
    intro a b hab x hx y hy
    split at hx <;> simp at hx
    split at hy <;> simp at hy
    subst hx; subst hy; exact hab
  · intro x hx
    simp only [Memory.writeAll, List.mem_filterMap, List.mem_range'_1] at hx
    obtain ⟨a, ha, hx⟩ := hx
    split at hx
    · rename_i hl
      simp at hx; subst hx; exact ⟨by omega, hl⟩
    · simp at hx

theorem Memory.fresh_wf (n : Nat) (sp : MemSpace) (k : Nat) : (Memory.fresh w sp k).wf n := by
  simp [Memory.wf, Memory.fresh]

/-! Equality of canonical memories -/

theorem cellAt_none_of_lt {cells : List (Nat × BitVec w)} {a : Nat} (h : ∀ x ∈ cells, a < x.1) :
    cellAt cells a = none := by
  induction cells with
  | nil => rfl
  | cons y rest ih =>
    obtain ⟨k, u⟩ := y
    have hk : a < k := h (k, u) List.mem_cons_self
    have : k ≠ a := by omega
    simp [cellAt, this, ih fun x hx => h x (List.mem_cons_of_mem _ hx)]

/-- Rising cell lists with the same lookups are the same list. -/
theorem cells_ext {l l' : List (Nat × BitVec w)} (h : l.Pairwise (fun x y => x.1 < y.1))
    (h' : l'.Pairwise (fun x y => x.1 < y.1)) (heq : ∀ a, cellAt l a = cellAt l' a) : l = l' := by
  induction l generalizing l' with
  | nil =>
    cases l' with
    | nil => rfl
    | cons y rest =>
      obtain ⟨k, u⟩ := y
      have := heq k
      simp [cellAt] at this
  | cons x rest ih =>
    obtain ⟨k, u⟩ := x
    rw [List.pairwise_cons] at h
    cases l' with
    | nil =>
      have := heq k
      simp [cellAt] at this
    | cons y rest' =>
      obtain ⟨k', u'⟩ := y
      rw [List.pairwise_cons] at h'
      have hkk : k = k' := by
        rcases Nat.lt_trichotomy k k' with hlt | heq' | hgt
        · have e := heq k
          have hne : k' ≠ k := by omega
          rw [cellAt, if_pos rfl, cellAt, if_neg hne,
            cellAt_none_of_lt fun x hx => Nat.lt_trans hlt (h'.1 x hx)] at e
          simp at e
        · exact heq'
        · have e := heq k'
          have hne : k ≠ k' := by omega
          rw [cellAt, if_neg hne, cellAt, if_pos rfl,
            cellAt_none_of_lt fun x hx => Nat.lt_trans hgt (h.1 x hx)] at e
          simp at e
      subst hkk
      have huu : u = u' := by simpa [cellAt] using heq k
      subst huu
      congr 1
      refine ih h.2 h'.2 fun a => ?_
      by_cases ha : k = a
      · subst ha
        rw [cellAt_none_of_lt h.1, cellAt_none_of_lt h'.1]
      · simpa [cellAt, ha] using heq a

/-- Canonical memories with one background and the same lookups are equal data. -/
theorem Memory.ext_cellAt {n : Nat} {m m' : Memory w} (hm : m.wf n) (hm' : m'.wf n)
    (hb : m.background = m'.background) (hc : ∀ a, cellAt m.cells a = cellAt m'.cells a) : m = m' := by
  obtain ⟨bg, cells⟩ := m
  obtain ⟨bg', cells'⟩ := m'
  simp only at hb
  subst hb
  exact congrArg (Memory.mk bg) (cells_ext hm.1 hm'.1 hc)

theorem cellAt_none_of_wf {n : Nat} {m : Memory w} (hm : m.wf n) {a : Nat} (ha : n ≤ a) : cellAt m.cells a = none := by
  have key : ∀ cells : List (Nat × BitVec w), (∀ x ∈ cells, x.1 < n) → cellAt cells a = none := by
    intro cells
    induction cells with
    | nil => intro _; rfl
    | cons y rest ih =>
      obtain ⟨k, u⟩ := y
      intro h
      have hk : k < n := h (k, u) List.mem_cons_self
      have : k ≠ a := by omega
      simp [cellAt, this, ih fun x hx => h x (List.mem_cons_of_mem _ hx)]
  exact key _ fun x hx => (hm.2 x hx).1

/-- A canonical memory that holds, cell by cell, what a whole write would list is that whole write. -/
theorem Memory.eq_writeAll {n : Nat} {m m' : Memory w} {f : Nat → BitVec w} (hm : m.wf n)
    (hb : m.background = m'.background) (hc : ∀ a, a < n → cellAt m.cells a = m.background.entry (f a)) :
    m = m'.writeAll n f := by
  refine Memory.ext_cellAt hm (Memory.writeAll_wf n m' f) (by simpa using hb) fun a => ?_
  rw [Memory.cellAt_writeAll]
  by_cases ha : a < n
  · rw [hc a ha, hb]; simp [ha]
  · rw [cellAt_none_of_wf hm (by omega)]; simp [ha]

/-- A value that no background entry hides is listed as itself: lookups of cells of a canonical memory. -/
theorem Memory.cellAt_lists {n : Nat} {m : Memory w} (hm : m.wf n) {a : Nat} {v : BitVec w}
    (h : cellAt m.cells a = some v) : m.background.lists v = true := by
  have key : ∀ cells : List (Nat × BitVec w), cellAt cells a = some v → (a, v) ∈ cells := by
    intro cells
    induction cells with
    | nil => intro h; simp [cellAt] at h
    | cons y rest ih =>
      obtain ⟨k, u⟩ := y
      intro h
      by_cases hk : k = a
      · simp [cellAt, hk] at h; simp [hk, h]
      · simp [cellAt, hk] at h; exact List.mem_cons_of_mem _ (ih h)
  exact (hm.2 _ (key _ h)).2

/-- With a known background, canonical memories that read the same everywhere are equal data. -/
theorem Memory.ext_read {n : Nat} {m m' : Memory w} {u : BitVec w} (hm : m.wf n) (hm' : m'.wf n)
    (hb : m.background = .filled u) (hb' : m'.background = .filled u) (hr : ∀ a, a < n → m.read a = m'.read a) :
    m = m' := by
  refine Memory.ext_cellAt hm hm' (hb.trans hb'.symm) fun a => ?_
  by_cases ha : a < n
  · have hra := hr a ha
    have l := @Memory.cellAt_lists w n m hm a
    have l' := @Memory.cellAt_lists w n m' hm' a
    unfold Memory.read Memory.unlisted at hra
    rw [hb] at hra l
    rw [hb'] at hra l'
    cases h : cellAt m.cells a with
    | none =>
      cases h' : cellAt m'.cells a with
      | none => rfl
      | some v' => have := l' h'; simp [h, h'] at hra; simp [Background.lists, hra] at this
    | some v =>
      cases h' : cellAt m'.cells a with
      | none => have := l h; simp [h, h'] at hra; simp [Background.lists, hra] at this
      | some v' => simp [h, h'] at hra; rw [hra]
  · rw [cellAt_none_of_wf hm (by omega), cellAt_none_of_wf hm' (by omega)]

end Sys2Proof.Machine
end

