-- ==== Sys2Proof/Laws/Pack.lean ====
section
/-! SUPPORT. The bits of a packed byte (R87, R116) and the indices of the grid (R51, R60, R61). -/

namespace Sys2Proof.Machine

@[simp] theorem bitRow_eq (y : Nat) : bitRow y = y := rfl
@[simp] theorem rowBit_eq (o : Nat) : rowBit o = o := rfl

theorem bitSum_lt (f : Nat → Bool) (n : Nat) : bitSum f n < 2 ^ n := by
  induction n with
  | zero => simp [bitSum]
  | succ n ih =>
    simp only [bitSum]
    rw [Nat.pow_succ]
    split <;> omega

/-- Bit `y` of a bit sum is `f y`. -/
theorem testBit_bitSum (f : Nat → Bool) (n y : Nat) : (bitSum f n).testBit y = (decide (y < n) && f y) := by
  induction n with
  | zero => simp [bitSum]
  | succ n ih =>
    simp only [bitSum]
    have hlt := bitSum_lt f n
    by_cases hf : f n = true
    · rw [if_pos hf]
      rcases Nat.lt_trichotomy y n with hy | hy | hy
      · rw [Nat.add_comm, Nat.testBit_two_pow_add_gt hy, ih]
        simp [hy, Nat.lt_succ_of_lt hy]
      · subst hy
        rw [Nat.add_comm, Nat.testBit_two_pow_add_eq, Nat.testBit_lt_two_pow hlt]
        simp [hf]
      · have hlt' : bitSum f n + 2 ^ n < 2 ^ y := by
          have h2 : 2 ^ (n + 1) ≤ 2 ^ y := Nat.pow_le_pow_right (by omega) hy
          rw [Nat.pow_succ] at h2
          omega
        rw [Nat.testBit_lt_two_pow hlt']
        have : ¬ y < n + 1 := by omega
        simp [this]
    · rw [if_neg hf, Nat.add_zero, ih]
      by_cases hy : y = n
      · subst hy; simp [hf]
      · congr 1
        have : (y < n) = (y < n + 1) := by apply propext; omega
        simp [this]

/-- Bit `y` of `PACKFN(G)[j]` (R116). -/
theorem packByte_getLsbD (G : Nat → Nat → Pixel) (j : Nat) {y : Nat} (h : y < 8) :
    (packByte G j).getLsbD y = on (G (j % 128) (8 * (j / 128) + y)) := by
  simp only [packByte_eq]
  rw [BitVec.getLsbD_ofNat, testBit_bitSum]
  simp [h]

/-- Two bytes with the same eight bits are equal. -/
theorem byte_ext {u v : Byte} (h : ∀ y, y < 8 → u.getLsbD y = v.getLsbD y) : u = v :=
  BitVec.eq_of_getLsbD_eq fun y hy => h y hy

/-- The column and block of a `PB` index (R60, R61). -/
theorem packedIndex_mod (b : Nat) {c : Nat} (h : c < 128) : packedIndex b c % 128 = c := by
  simp only [packedIndex_eq]; omega

theorem packedIndex_div (b : Nat) {c : Nat} (h : c < 128) : packedIndex b c / 128 = b := by
  simp only [packedIndex_eq]; omega

theorem gridIndex_mod {c : Nat} (r : Nat) (h : c < 128) : gridIndex c r % 128 = c := by
  simp only [gridIndex_eq]; omega

theorem gridIndex_div {c : Nat} (r : Nat) (h : c < 128) : gridIndex c r / 128 = r := by
  simp only [gridIndex_eq]; omega

theorem gridIndex_lt {c r : Nat} (hc : c < 128) (hr : r < 64) : gridIndex c r < 8192 := by
  simp only [gridIndex_eq]; omega

theorem packedIndex_lt {b c : Nat} (hb : b < 8) (hc : c < 128) : packedIndex b c < 1024 := by
  simp only [packedIndex_eq]; omega

/-! The order of the scans (R36): block outermost, then column, then row from 7 down -/

/-- The turn of grid element `a` in a scan. -/
def gridTurn (a : Nat) : Nat := 1024 * (a / 128 / 8) + 8 * (a % 128) + (7 - a / 128 % 8)

/-- The grid element of turn `n` of a scan. -/
def gridPlace (n : Nat) : Nat := gridIndex (n / 8 % 128) (8 * (n / 1024) + (7 - n % 8))

theorem gridPlace_mod (n : Nat) : gridPlace n % 128 = n / 8 % 128 := gridIndex_mod _ (by omega)

theorem gridPlace_div (n : Nat) : gridPlace n / 128 = 8 * (n / 1024) + (7 - n % 8) := gridIndex_div _ (by omega)

theorem gridPlace_lt {n : Nat} (h : n < 8192) : gridPlace n < 8192 := gridIndex_lt (by omega) (by omega)

theorem gridTurn_lt {a : Nat} (h : a < 8192) : gridTurn a < 8192 := by unfold gridTurn; omega

theorem gridTurn_gridPlace (n : Nat) : gridTurn (gridPlace n) = n := by
  rw [gridTurn, gridPlace_mod, gridPlace_div]; omega

theorem gridPlace_gridTurn (a : Nat) : gridPlace (gridTurn a) = a := by
  have h := Nat.div_add_mod a 128
  unfold gridTurn
  generalize a / 128 = r at *
  generalize hc : a % 128 = c at *
  have : c < 128 := by omega
  simp only [gridPlace, gridIndex_eq]
  rw [show (1024 * (r / 8) + 8 * c + (7 - r % 8)) / 8 % 128 = c by omega,
    show (1024 * (r / 8) + 8 * c + (7 - r % 8)) / 1024 = r / 8 by omega,
    show (1024 * (r / 8) + 8 * c + (7 - r % 8)) % 8 = 7 - r % 8 by omega]
  omega

end Sys2Proof.Machine
end

