-- ==== Sys2Proof/Laws/State.lean ====
section
/-! SUPPORT. One lemma per field per update of State, each true by `rfl`. -/

namespace Sys2Proof.Machine

/-! Completion (R151). -/

@[simp] theorem State.complete_status (s : State) : (s.complete).status = s.status.complete := rfl
@[simp] theorem State.complete_base (s : State) : (s.complete).base = s.base := rfl
@[simp] theorem State.complete_dimw (s : State) : (s.complete).dimw = s.dimw := rfl
@[simp] theorem State.complete_dimh (s : State) : (s.complete).dimh = s.dimh := rfl
@[simp] theorem State.complete_csacc (s : State) : (s.complete).csacc = s.csacc := rfl
@[simp] theorem State.complete_pix (s : State) : (s.complete).pix = s.pix := rfl
@[simp] theorem State.complete_pb (s : State) : (s.complete).pb = s.pb := rfl
@[simp] theorem State.complete_out (s : State) : (s.complete).out = s.out := rfl
@[simp] theorem State.complete_pv (s : State) : (s.complete).pv = s.pv := rfl
@[simp] theorem State.complete_seq (s : State) : (s.complete).seq = Seq.idle := rfl
@[simp] theorem State.complete_fresh (s : State) : (s.complete).fresh = s.fresh := rfl
@[simp] theorem State.complete_events (s : State) : (s.complete).events = s.events := rfl
@[simp] theorem State.complete_answers (s : State) : (s.complete).answers = s.answers := rfl

/-! Error entry (R170). -/

@[simp] theorem State.raise_status (s : State) (e : ErrorKind) : (s.raise e).status = s.status.raise e := rfl
@[simp] theorem State.raise_base (s : State) (e : ErrorKind) : (s.raise e).base = s.base := rfl
@[simp] theorem State.raise_dimw (s : State) (e : ErrorKind) : (s.raise e).dimw = s.dimw := rfl
@[simp] theorem State.raise_dimh (s : State) (e : ErrorKind) : (s.raise e).dimh = s.dimh := rfl
@[simp] theorem State.raise_csacc (s : State) (e : ErrorKind) : (s.raise e).csacc = s.csacc := rfl
@[simp] theorem State.raise_pix (s : State) (e : ErrorKind) : (s.raise e).pix = s.pix := rfl
@[simp] theorem State.raise_pb (s : State) (e : ErrorKind) : (s.raise e).pb = s.pb := rfl
@[simp] theorem State.raise_out (s : State) (e : ErrorKind) : (s.raise e).out = s.out := rfl
@[simp] theorem State.raise_pv (s : State) (e : ErrorKind) : (s.raise e).pv = s.pv := rfl
@[simp] theorem State.raise_seq (s : State) (e : ErrorKind) : (s.raise e).seq = Seq.idle := rfl
@[simp] theorem State.raise_fresh (s : State) (e : ErrorKind) : (s.raise e).fresh = s.fresh := rfl
@[simp] theorem State.raise_events (s : State) (e : ErrorKind) : (s.raise e).events = s.events := rfl
@[simp] theorem State.raise_answers (s : State) (e : ErrorKind) : (s.raise e).answers = s.answers := rfl

/-! The write of `PB` by `PACK` (R119). -/

@[simp] theorem State.packAll_status (s : State) : (s.packAll).status = s.status := rfl
@[simp] theorem State.packAll_base (s : State) : (s.packAll).base = s.base := rfl
@[simp] theorem State.packAll_dimw (s : State) : (s.packAll).dimw = s.dimw := rfl
@[simp] theorem State.packAll_dimh (s : State) : (s.packAll).dimh = s.dimh := rfl
@[simp] theorem State.packAll_csacc (s : State) : (s.packAll).csacc = s.csacc := rfl
@[simp] theorem State.packAll_pix (s : State) : (s.packAll).pix = s.pix := rfl
@[simp] theorem State.packAll_pb (s : State) :
    (s.packAll).pb =
      s.pb.writeAll Config.packedLen (packByte s.pixel) := rfl
@[simp] theorem State.packAll_out (s : State) : (s.packAll).out = s.out := rfl
@[simp] theorem State.packAll_pv (s : State) : (s.packAll).pv = s.pv := rfl
@[simp] theorem State.packAll_seq (s : State) : (s.packAll).seq = s.seq := rfl
@[simp] theorem State.packAll_fresh (s : State) : (s.packAll).fresh = s.fresh := rfl
@[simp] theorem State.packAll_events (s : State) : (s.packAll).events = s.events := rfl
@[simp] theorem State.packAll_answers (s : State) : (s.packAll).answers = s.answers := rfl

/-! The write of `OUT` by `ENCODE` (R131). -/

@[simp] theorem State.encodeAll_status (s : State) : (s.encodeAll).status = s.status := rfl
@[simp] theorem State.encodeAll_base (s : State) : (s.encodeAll).base = s.base := rfl
@[simp] theorem State.encodeAll_dimw (s : State) : (s.encodeAll).dimw = s.dimw := rfl
@[simp] theorem State.encodeAll_dimh (s : State) : (s.encodeAll).dimh = s.dimh := rfl
@[simp] theorem State.encodeAll_csacc (s : State) : (s.encodeAll).csacc = s.csacc := rfl
@[simp] theorem State.encodeAll_pix (s : State) : (s.encodeAll).pix = s.pix := rfl
@[simp] theorem State.encodeAll_pb (s : State) : (s.encodeAll).pb = s.pb := rfl
@[simp] theorem State.encodeAll_out (s : State) :
    (s.encodeAll).out =
      s.out.writeAll Config.outLen fun a => lineChar s.base s.packed (a / Config.lineLen) (a % Config.lineLen) := rfl
@[simp] theorem State.encodeAll_pv (s : State) : (s.encodeAll).pv = s.pv := rfl
@[simp] theorem State.encodeAll_seq (s : State) : (s.encodeAll).seq = s.seq := rfl
@[simp] theorem State.encodeAll_fresh (s : State) : (s.encodeAll).fresh = s.fresh := rfl
@[simp] theorem State.encodeAll_events (s : State) : (s.encodeAll).events = s.events := rfl
@[simp] theorem State.encodeAll_answers (s : State) : (s.encodeAll).answers = s.answers := rfl

/-! The write of `PV` by `UNPACK` (R142). -/

@[simp] theorem State.unpackAll_status (s : State) : (s.unpackAll).status = s.status := rfl
@[simp] theorem State.unpackAll_base (s : State) : (s.unpackAll).base = s.base := rfl
@[simp] theorem State.unpackAll_dimw (s : State) : (s.unpackAll).dimw = s.dimw := rfl
@[simp] theorem State.unpackAll_dimh (s : State) : (s.unpackAll).dimh = s.dimh := rfl
@[simp] theorem State.unpackAll_csacc (s : State) : (s.unpackAll).csacc = s.csacc := rfl
@[simp] theorem State.unpackAll_pix (s : State) : (s.unpackAll).pix = s.pix := rfl
@[simp] theorem State.unpackAll_pb (s : State) : (s.unpackAll).pb = s.pb := rfl
@[simp] theorem State.unpackAll_out (s : State) : (s.unpackAll).out = s.out := rfl
@[simp] theorem State.unpackAll_pv (s : State) :
    (s.unpackAll).pv =
      s.pv.writeAll Config.gridLen fun a => previewPixel s.packed (a % Config.width) (a / Config.width) := rfl
@[simp] theorem State.unpackAll_seq (s : State) : (s.unpackAll).seq = s.seq := rfl
@[simp] theorem State.unpackAll_fresh (s : State) : (s.unpackAll).fresh = s.fresh := rfl
@[simp] theorem State.unpackAll_events (s : State) : (s.unpackAll).events = s.events := rfl
@[simp] theorem State.unpackAll_answers (s : State) : (s.unpackAll).answers = s.answers := rfl

/-! A value returned to the host (log 4). -/

@[simp] theorem State.answer_status (s : State) (a : Answer) : (s.answer a).status = s.status := rfl
@[simp] theorem State.answer_base (s : State) (a : Answer) : (s.answer a).base = s.base := rfl
@[simp] theorem State.answer_dimw (s : State) (a : Answer) : (s.answer a).dimw = s.dimw := rfl
@[simp] theorem State.answer_dimh (s : State) (a : Answer) : (s.answer a).dimh = s.dimh := rfl
@[simp] theorem State.answer_csacc (s : State) (a : Answer) : (s.answer a).csacc = s.csacc := rfl
@[simp] theorem State.answer_pix (s : State) (a : Answer) : (s.answer a).pix = s.pix := rfl
@[simp] theorem State.answer_pb (s : State) (a : Answer) : (s.answer a).pb = s.pb := rfl
@[simp] theorem State.answer_out (s : State) (a : Answer) : (s.answer a).out = s.out := rfl
@[simp] theorem State.answer_pv (s : State) (a : Answer) : (s.answer a).pv = s.pv := rfl
@[simp] theorem State.answer_seq (s : State) (a : Answer) : (s.answer a).seq = s.seq := rfl
@[simp] theorem State.answer_fresh (s : State) (a : Answer) : (s.answer a).fresh = s.fresh := rfl
@[simp] theorem State.answer_events (s : State) (a : Answer) : (s.answer a).events = s.events := rfl
@[simp] theorem State.answer_answers (s : State) (a : Answer) : (s.answer a).answers = a :: s.answers := rfl

/-! Acceptance (R149). -/

@[simp] theorem State.accept_status (s : State) (w : Word) : (s.accept w).status = s.status.accept := rfl
@[simp] theorem State.accept_base (s : State) (w : Word) : (s.accept w).base = s.base := rfl
@[simp] theorem State.accept_dimw (s : State) (w : Word) : (s.accept w).dimw = s.dimw := rfl
@[simp] theorem State.accept_dimh (s : State) (w : Word) : (s.accept w).dimh = s.dimh := rfl
@[simp] theorem State.accept_csacc (s : State) (w : Word) : (s.accept w).csacc = s.csacc := rfl
@[simp] theorem State.accept_pix (s : State) (w : Word) : (s.accept w).pix = s.pix := rfl
@[simp] theorem State.accept_pb (s : State) (w : Word) : (s.accept w).pb = s.pb := rfl
@[simp] theorem State.accept_out (s : State) (w : Word) : (s.accept w).out = s.out := rfl
@[simp] theorem State.accept_pv (s : State) (w : Word) : (s.accept w).pv = s.pv := rfl
@[simp] theorem State.accept_seq (s : State) (w : Word) :
    (s.accept w).seq =
      { Seq.idle with phase := firstPhase w } := rfl
@[simp] theorem State.accept_fresh (s : State) (w : Word) : (s.accept w).fresh = s.fresh := rfl
@[simp] theorem State.accept_events (s : State) (w : Word) : (s.accept w).events = s.events := rfl
@[simp] theorem State.accept_answers (s : State) (w : Word) : (s.accept w).answers = s.answers := rfl

/-! The start of the encoder (R132). -/

@[simp] theorem State.startEncode_status (s : State) (conv : Bool) : (s.startEncode conv).status = s.status := rfl
@[simp] theorem State.startEncode_base (s : State) (conv : Bool) : (s.startEncode conv).base = s.base := rfl
@[simp] theorem State.startEncode_dimw (s : State) (conv : Bool) : (s.startEncode conv).dimw = s.dimw := rfl
@[simp] theorem State.startEncode_dimh (s : State) (conv : Bool) : (s.startEncode conv).dimh = s.dimh := rfl
@[simp] theorem State.startEncode_csacc (s : State) (conv : Bool) : (s.startEncode conv).csacc = s.csacc := rfl
@[simp] theorem State.startEncode_pix (s : State) (conv : Bool) : (s.startEncode conv).pix = s.pix := rfl
@[simp] theorem State.startEncode_pb (s : State) (conv : Bool) : (s.startEncode conv).pb = s.pb := rfl
@[simp] theorem State.startEncode_out (s : State) (conv : Bool) : (s.startEncode conv).out = s.out := rfl
@[simp] theorem State.startEncode_pv (s : State) (conv : Bool) : (s.startEncode conv).pv = s.pv := rfl
@[simp] theorem State.startEncode_seq (s : State) (conv : Bool) :
    (s.startEncode conv).seq =
      { Seq.enter (.load conv) with addr17 := s.base.setWidth 17 } := rfl
@[simp] theorem State.startEncode_fresh (s : State) (conv : Bool) : (s.startEncode conv).fresh = s.fresh := rfl
@[simp] theorem State.startEncode_events (s : State) (conv : Bool) : (s.startEncode conv).events = s.events := rfl
@[simp] theorem State.startEncode_answers (s : State) (conv : Bool) : (s.startEncode conv).answers = s.answers := rfl

/-! The start of a record (R132). -/

@[simp] theorem State.tickLoad_status (s : State) (conv : Bool) : (s.tickLoad conv).status = s.status := rfl
@[simp] theorem State.tickLoad_base (s : State) (conv : Bool) : (s.tickLoad conv).base = s.base := rfl
@[simp] theorem State.tickLoad_dimw (s : State) (conv : Bool) : (s.tickLoad conv).dimw = s.dimw := rfl
@[simp] theorem State.tickLoad_dimh (s : State) (conv : Bool) : (s.tickLoad conv).dimh = s.dimh := rfl
@[simp] theorem State.tickLoad_csacc (s : State) (conv : Bool) : (s.tickLoad conv).csacc = s.csacc := rfl
@[simp] theorem State.tickLoad_pix (s : State) (conv : Bool) : (s.tickLoad conv).pix = s.pix := rfl
@[simp] theorem State.tickLoad_pb (s : State) (conv : Bool) : (s.tickLoad conv).pb = s.pb := rfl
@[simp] theorem State.tickLoad_out (s : State) (conv : Bool) :
    (s.tickLoad conv).out =
      s.out.write (outIndex s.seq.i.toNat 0) colon := rfl
@[simp] theorem State.tickLoad_pv (s : State) (conv : Bool) : (s.tickLoad conv).pv = s.pv := rfl
@[simp] theorem State.tickLoad_seq (s : State) (conv : Bool) :
    (s.tickLoad conv).seq =
      { s.seq with phase := .emit conv, k := 0#5, rsum := 0x00#8 } := rfl
@[simp] theorem State.tickLoad_fresh (s : State) (conv : Bool) : (s.tickLoad conv).fresh = s.fresh := rfl
@[simp] theorem State.tickLoad_events (s : State) (conv : Bool) : (s.tickLoad conv).events = s.events := rfl
@[simp] theorem State.tickLoad_answers (s : State) (conv : Bool) : (s.tickLoad conv).answers = s.answers := rfl

/-! Two digits of a record (R132). -/

@[simp] theorem State.emitDigits_status (s : State) : (s.emitDigits).status = s.status := rfl
@[simp] theorem State.emitDigits_base (s : State) : (s.emitDigits).base = s.base := rfl
@[simp] theorem State.emitDigits_dimw (s : State) : (s.emitDigits).dimw = s.dimw := rfl
@[simp] theorem State.emitDigits_dimh (s : State) : (s.emitDigits).dimh = s.dimh := rfl
@[simp] theorem State.emitDigits_csacc (s : State) : (s.emitDigits).csacc = s.csacc := rfl
@[simp] theorem State.emitDigits_pix (s : State) : (s.emitDigits).pix = s.pix := rfl
@[simp] theorem State.emitDigits_pb (s : State) : (s.emitDigits).pb = s.pb := rfl
@[simp] theorem State.emitDigits_out (s : State) :
    (s.emitDigits).out =
      (s.out.write (outIndex s.seq.i.toNat (1 + 2 * s.seq.k.toNat)) (hexDigit (s.emitByte.toNat / 16))).write
      (outIndex s.seq.i.toNat (2 + 2 * s.seq.k.toNat)) (hexDigit (s.emitByte.toNat % 16)) := rfl
@[simp] theorem State.emitDigits_pv (s : State) : (s.emitDigits).pv = s.pv := rfl
@[simp] theorem State.emitDigits_seq (s : State) : (s.emitDigits).seq = s.seq := rfl
@[simp] theorem State.emitDigits_fresh (s : State) : (s.emitDigits).fresh = s.fresh := rfl
@[simp] theorem State.emitDigits_events (s : State) : (s.emitDigits).events = s.events := rfl
@[simp] theorem State.emitDigits_answers (s : State) : (s.emitDigits).answers = s.answers := rfl

/-! A command word placed for the next step. -/

@[simp] theorem State.withCommandWord_status (s : State) (w : Word) :
    (s.withCommandWord w).status =
      { s.status with busy := false } := rfl
@[simp] theorem State.withCommandWord_base (s : State) (w : Word) : (s.withCommandWord w).base = s.base := rfl
@[simp] theorem State.withCommandWord_dimw (s : State) (w : Word) : (s.withCommandWord w).dimw = s.dimw := rfl
@[simp] theorem State.withCommandWord_dimh (s : State) (w : Word) : (s.withCommandWord w).dimh = s.dimh := rfl
@[simp] theorem State.withCommandWord_csacc (s : State) (w : Word) : (s.withCommandWord w).csacc = s.csacc := rfl
@[simp] theorem State.withCommandWord_pix (s : State) (w : Word) : (s.withCommandWord w).pix = s.pix := rfl
@[simp] theorem State.withCommandWord_pb (s : State) (w : Word) : (s.withCommandWord w).pb = s.pb := rfl
@[simp] theorem State.withCommandWord_out (s : State) (w : Word) : (s.withCommandWord w).out = s.out := rfl
@[simp] theorem State.withCommandWord_pv (s : State) (w : Word) : (s.withCommandWord w).pv = s.pv := rfl
@[simp] theorem State.withCommandWord_seq (s : State) (w : Word) : (s.withCommandWord w).seq = Seq.idle := rfl
@[simp] theorem State.withCommandWord_fresh (s : State) (w : Word) : (s.withCommandWord w).fresh = s.fresh := rfl
@[simp] theorem State.withCommandWord_events (s : State) (w : Word) :
    (s.withCommandWord w).events =
      .move (.writeReg 0#3 w) :: s.events := rfl
@[simp] theorem State.withCommandWord_answers (s : State) (w : Word) :
    (s.withCommandWord w).answers =
      s.answers := rfl

/-! The reset move (R190, R191). -/

@[simp] theorem State.hostReset_status (s : State) : (s.hostReset).status = Status.reset := rfl
@[simp] theorem State.hostReset_base (s : State) : (s.hostReset).base = Config.baseDefault := rfl
@[simp] theorem State.hostReset_dimw (s : State) : (s.hostReset).dimw = Config.dimwDefault := rfl
@[simp] theorem State.hostReset_dimh (s : State) : (s.hostReset).dimh = Config.dimhDefault := rfl
@[simp] theorem State.hostReset_csacc (s : State) : (s.hostReset).csacc = 0x00#8 := rfl
@[simp] theorem State.hostReset_pix (s : State) : (s.hostReset).pix = s.pix.afterReset .pix s.seq.phase s.fresh := rfl
@[simp] theorem State.hostReset_pb (s : State) : (s.hostReset).pb = s.pb.afterReset .pb s.seq.phase s.fresh := rfl
@[simp] theorem State.hostReset_out (s : State) : (s.hostReset).out = s.out.afterReset .out s.seq.phase s.fresh := rfl
@[simp] theorem State.hostReset_pv (s : State) : (s.hostReset).pv = s.pv.afterReset .pv s.seq.phase s.fresh := rfl
@[simp] theorem State.hostReset_seq (s : State) : (s.hostReset).seq = Seq.idle := rfl
@[simp] theorem State.hostReset_fresh (s : State) : (s.hostReset).fresh = s.fresh + 1 := rfl
@[simp] theorem State.hostReset_events (s : State) : (s.hostReset).events = s.events := rfl
@[simp] theorem State.hostReset_answers (s : State) : (s.hostReset).answers = s.answers := rfl

/-! The fields of `STATUS` (R23) -/

@[simp] theorem Status.complete_busy (st : Status) : (st.complete).busy = false := rfl
@[simp] theorem Status.complete_done (st : Status) : (st.complete).done = true := rfl
@[simp] theorem Status.complete_err (st : Status) : (st.complete).err = 0#4 := rfl
@[simp] theorem Status.complete_edim (st : Status) : (st.complete).edim = st.edim := rfl
@[simp] theorem Status.complete_eaddr (st : Status) : (st.complete).eaddr = st.eaddr := rfl
@[simp] theorem Status.complete_eill (st : Status) : (st.complete).eill = st.eill := rfl

@[simp] theorem Status.accept_busy (st : Status) : (st.accept).busy = true := rfl
@[simp] theorem Status.accept_done (st : Status) : (st.accept).done = st.done := rfl
@[simp] theorem Status.accept_err (st : Status) : (st.accept).err = st.err := rfl
@[simp] theorem Status.accept_edim (st : Status) : (st.accept).edim = st.edim := rfl
@[simp] theorem Status.accept_eaddr (st : Status) : (st.accept).eaddr = st.eaddr := rfl
@[simp] theorem Status.accept_eill (st : Status) : (st.accept).eill = st.eill := rfl

@[simp] theorem Status.raise_busy (st : Status) (e : ErrorKind) : (st.raise e).busy = false := rfl
@[simp] theorem Status.raise_done (st : Status) (e : ErrorKind) : (st.raise e).done = true := rfl
@[simp] theorem Status.raise_err (st : Status) (e : ErrorKind) : (st.raise e).err = e.code := rfl
@[simp] theorem Status.raise_edim (st : Status) (e : ErrorKind) : (st.raise e).edim = (st.edim || decide (e = .invalidDimensions)) := rfl
@[simp] theorem Status.raise_eaddr (st : Status) (e : ErrorKind) : (st.raise e).eaddr = (st.eaddr || decide (e = .addressOverflow)) := rfl
@[simp] theorem Status.raise_eill (st : Status) (e : ErrorKind) : (st.raise e).eill = (st.eill || decide (e = .illegalCommand)) := rfl

/-! Codes (R166) -/

@[simp] theorem ErrorKind.code_invalidDimensions : ErrorKind.invalidDimensions.code = 1#4 := rfl
@[simp] theorem ErrorKind.code_addressOverflow : ErrorKind.addressOverflow.code = 2#4 := rfl
@[simp] theorem ErrorKind.code_illegalCommand : ErrorKind.illegalCommand.code = 4#4 := rfl

/-- No raise writes code 0 (R166). -/
theorem ErrorKind.code_ne_zero (e : ErrorKind) : e.code ≠ 0#4 := by cases e <;> decide

/-! The sequencer -/

@[simp] theorem Seq.idle_phase : Seq.idle.phase = .idle := rfl
@[simp] theorem Seq.enter_phase (p : Phase) : (Seq.enter p).phase = p := rfl

/-! The write of one place of the scan touches `PB` only (R119) -/

@[simp] theorem State.scanPlace_status (s : State) : s.scanPlace.status = s.status := by
  unfold State.scanPlace; split <;> rfl
@[simp] theorem State.scanPlace_base (s : State) : s.scanPlace.base = s.base := by
  unfold State.scanPlace; split <;> rfl
@[simp] theorem State.scanPlace_dimw (s : State) : s.scanPlace.dimw = s.dimw := by
  unfold State.scanPlace; split <;> rfl
@[simp] theorem State.scanPlace_dimh (s : State) : s.scanPlace.dimh = s.dimh := by
  unfold State.scanPlace; split <;> rfl
@[simp] theorem State.scanPlace_csacc (s : State) : s.scanPlace.csacc = s.csacc := by
  unfold State.scanPlace; split <;> rfl
@[simp] theorem State.scanPlace_pix (s : State) : s.scanPlace.pix = s.pix := by
  unfold State.scanPlace; split <;> rfl
@[simp] theorem State.scanPlace_out (s : State) : s.scanPlace.out = s.out := by
  unfold State.scanPlace; split <;> rfl
@[simp] theorem State.scanPlace_pv (s : State) : s.scanPlace.pv = s.pv := by
  unfold State.scanPlace; split <;> rfl
@[simp] theorem State.scanPlace_seq (s : State) : s.scanPlace.seq = s.seq := by
  unfold State.scanPlace; split <;> rfl
@[simp] theorem State.scanPlace_fresh (s : State) : s.scanPlace.fresh = s.fresh := by
  unfold State.scanPlace; split <;> rfl
@[simp] theorem State.scanPlace_events (s : State) : s.scanPlace.events = s.events := by
  unfold State.scanPlace; split <;> rfl
@[simp] theorem State.scanPlace_answers (s : State) : s.scanPlace.answers = s.answers := by
  unfold State.scanPlace; split <;> rfl

end Sys2Proof.Machine
end

