-- ==== Sys2Proof/Laws/Exec.lean ====
section
/-! SUPPORT. What each command can do, said once: its meaning, and the elements of the memory it writes. -/

namespace Sys2Proof.Machine

/-! Meanings -/

theorem exec_nop (s : State) : exec .nop s = .next s.complete := rfl

theorem exec_csclr (s : State) : exec .csclr s = .next (State.complete { s with csacc := 0x00#8 }) := rfl

theorem exec_csadd (v : Byte) (s : State) :
    exec (.csadd v) s = .next (State.complete { s with csacc := accumulate s.csacc v }) := rfl

theorem exec_unpack (s : State) : exec .unpack s = .next s.unpackAll.complete := rfl

theorem exec_pack (s : State) :
    exec .pack s = .next (if s.dimOk = true then s.packAll.complete else s.raise .invalidDimensions) := by
  show execPack s = _
  unfold execPack
  cases s.dimOk <;> simp

theorem exec_encode (s : State) :
    exec .encode s = .next (if addrOk s.base = true then s.encodeAll.complete else s.raise .addressOverflow) := by
  show execEncode s = _
  unfold execEncode
  cases addrOk s.base <;> simp

theorem exec_convert (s : State) :
    exec .convert s = .next (if s.dimOk = true then
      (if addrOk s.base = true then s.packAll.encodeAll.unpackAll.complete else s.raise .addressOverflow)
      else s.raise .invalidDimensions) := by
  show execConvert s = _
  unfold execConvert
  cases s.dimOk <;> cases addrOk s.base <;> simp

/-- Every command answers a next state (R150). -/
theorem exec_total (i : Instr) (s : State) : ∃ t, exec i s = .next t := by
  cases i with
  | nop => exact ⟨_, exec_nop s⟩
  | pack => exact ⟨_, exec_pack s⟩
  | encode => exact ⟨_, exec_encode s⟩
  | unpack => exact ⟨_, exec_unpack s⟩
  | csclr => exact ⟨_, exec_csclr s⟩
  | csadd v => exact ⟨_, exec_csadd v s⟩
  | convert => exact ⟨_, exec_convert s⟩

/-- How a command can end: by a raise that changes nothing but the flags, or by a completion after its writes. -/
theorem exec_cases {i : Instr} {s t : State} (h : exec i s = .next t) :
    (∃ e, t = s.raise e ∧ (i = .pack ∨ i = .encode ∨ i = .convert) ∧
      (e = .invalidDimensions ∧ s.dimOk = false ∨ e = .addressOverflow ∧ addrOk s.base = false)) ∨
    (t = State.complete { s with csacc := t.csacc, pb := t.pb, out := t.out, pv := t.pv }) := by
  have hn : ∀ {u : State}, exec i s = .next u → t = u := fun hu => by
    rw [h] at hu; injection hu
  cases i with
  | nop => right; rw [hn (exec_nop s)]; rfl
  | csclr => right; rw [hn (exec_csclr s)]; rfl
  | csadd v => right; rw [hn (exec_csadd v s)]; rfl
  | unpack => right; rw [hn (exec_unpack s)]; simp [State.complete, State.unpackAll]
  | pack =>
    have ht := hn (exec_pack s)
    split at ht
    · right; rw [ht]; simp [State.complete, State.packAll]
    · rename_i hd; left; exact ⟨_, ht, .inl rfl, .inl ⟨rfl, by simpa using hd⟩⟩
  | encode =>
    have ht := hn (exec_encode s)
    split at ht
    · right; rw [ht]; simp [State.complete, State.encodeAll]
    · rename_i hd; left; exact ⟨_, ht, .inr (.inl rfl), .inr ⟨rfl, by simpa using hd⟩⟩
  | convert =>
    have ht := hn (exec_convert s)
    split at ht
    · split at ht
      · right; rw [ht]; simp [State.complete, State.packAll, State.encodeAll, State.unpackAll]
      · rename_i hd; left; exact ⟨_, ht, .inr (.inr rfl), .inr ⟨rfl, by simpa using hd⟩⟩
    · rename_i hd; left; exact ⟨_, ht, .inr (.inr rfl), .inl ⟨rfl, by simpa using hd⟩⟩

/-! The elements a transform writes -/

theorem State.packed_packAll (s : State) {j : Nat} (h : j < 1024) : s.packAll.packed j = packByte s.pixel j := by
  unfold State.packed
  rw [State.packAll_pb]
  exact Memory.read_writeAll _ _ h

/-- Bit `y` of the byte `PACK` writes for column `c` of block `b` (R87). -/
theorem State.packAll_bit (s : State) {b c y : Nat} (hb : b < 8) (hc : c < 128) (hy : y < 8) :
    (s.packAll.packed (packedIndex b c)).getLsbD y = on (s.pixel c (8 * b + y)) := by
  rw [State.packed_packAll s (packedIndex_lt hb hc), packByte_getLsbD _ _ hy, packedIndex_mod b hc,
    packedIndex_div b hc]

theorem outIndex_div (i : Nat) {k : Nat} (h : k < 43) : outIndex i k / 43 = i := by simp only [outIndex_eq]; omega
theorem outIndex_mod (i : Nat) {k : Nat} (h : k < 43) : outIndex i k % 43 = k := by simp only [outIndex_eq]; omega
theorem outIndex_lt {i k : Nat} (hi : i < 64) (hk : k < 43) : outIndex i k < 2752 := by simp only [outIndex_eq]; omega

/-- Character `k` of line `i` after `ENCODE` (R92, R131). -/
theorem State.outChar_encodeAll (s : State) {i k : Nat} (hi : i < 64) (hk : k < 43) :
    s.encodeAll.outChar i k = lineChar s.base s.packed i k := by
  simp only [State.outChar_eq]
  rw [if_pos (by simpa using hk), State.encodeAll_out, Memory.read_writeAll _ _ (by simpa using outIndex_lt hi hk),
    Config.lineLen_eq, outIndex_div i hk, outIndex_mod i hk]

/-- Pixel `(c, r)` after `UNPACK` (R140, R142). -/
theorem State.preview_unpackAll (s : State) {c r : Nat} (hc : c < 128) (hr : r < 64) :
    s.unpackAll.preview c r = previewPixel s.packed c r := by
  unfold State.preview
  rw [State.unpackAll_pv, Memory.read_writeAll _ _ (by simpa using gridIndex_lt hc hr), Config.width_eq,
    gridIndex_mod r hc, gridIndex_div r hc]

/-! Reads of a memory that an update leaves alone -/

theorem State.pixel_congr {s t : State} (h : t.pix = s.pix) : t.pixel = s.pixel := by
  funext c r; simp [State.pixel, h]

theorem State.packed_congr {s t : State} (h : t.pb = s.pb) : t.packed = s.packed := by
  funext j; simp [State.packed, h]

theorem State.outChar_congr {s t : State} (h : t.out = s.out) : t.outChar = s.outChar := by
  funext i k; simp [State.outChar_eq, h]

theorem State.preview_congr {s t : State} (h : t.pv = s.pv) : t.preview = s.preview := by
  funext c r; simp [State.preview, h]

/-! Reads after an update that leaves the memory alone -/

@[simp] theorem State.pixel_complete (s : State) : (s.complete).pixel = s.pixel := State.pixel_congr (by simp)
@[simp] theorem State.packed_complete (s : State) : (s.complete).packed = s.packed := State.packed_congr (by simp)
@[simp] theorem State.outChar_complete (s : State) : (s.complete).outChar = s.outChar := State.outChar_congr (by simp)
@[simp] theorem State.preview_complete (s : State) : (s.complete).preview = s.preview := State.preview_congr (by simp)

@[simp] theorem State.pixel_raise (s : State) (e : ErrorKind) : (s.raise e).pixel = s.pixel := State.pixel_congr (by simp)
@[simp] theorem State.packed_raise (s : State) (e : ErrorKind) : (s.raise e).packed = s.packed := State.packed_congr (by simp)
@[simp] theorem State.outChar_raise (s : State) (e : ErrorKind) : (s.raise e).outChar = s.outChar := State.outChar_congr (by simp)
@[simp] theorem State.preview_raise (s : State) (e : ErrorKind) : (s.raise e).preview = s.preview := State.preview_congr (by simp)

@[simp] theorem State.pixel_packAll (s : State) : (s.packAll).pixel = s.pixel := State.pixel_congr (by simp)
@[simp] theorem State.outChar_packAll (s : State) : (s.packAll).outChar = s.outChar := State.outChar_congr (by simp)
@[simp] theorem State.preview_packAll (s : State) : (s.packAll).preview = s.preview := State.preview_congr (by simp)

@[simp] theorem State.pixel_encodeAll (s : State) : (s.encodeAll).pixel = s.pixel := State.pixel_congr (by simp)
@[simp] theorem State.packed_encodeAll (s : State) : (s.encodeAll).packed = s.packed := State.packed_congr (by simp)
@[simp] theorem State.preview_encodeAll (s : State) : (s.encodeAll).preview = s.preview := State.preview_congr (by simp)

@[simp] theorem State.pixel_unpackAll (s : State) : (s.unpackAll).pixel = s.pixel := State.pixel_congr (by simp)
@[simp] theorem State.packed_unpackAll (s : State) : (s.unpackAll).packed = s.packed := State.packed_congr (by simp)
@[simp] theorem State.outChar_unpackAll (s : State) : (s.unpackAll).outChar = s.outChar := State.outChar_congr (by simp)

@[simp] theorem State.pixel_answer (s : State) (a : Answer) : (s.answer a).pixel = s.pixel := State.pixel_congr (by simp)
@[simp] theorem State.packed_answer (s : State) (a : Answer) : (s.answer a).packed = s.packed := State.packed_congr (by simp)
@[simp] theorem State.outChar_answer (s : State) (a : Answer) : (s.answer a).outChar = s.outChar := State.outChar_congr (by simp)
@[simp] theorem State.preview_answer (s : State) (a : Answer) : (s.answer a).preview = s.preview := State.preview_congr (by simp)

@[simp] theorem State.pixel_accept (s : State) (w : Word) : (s.accept w).pixel = s.pixel := State.pixel_congr (by simp)
@[simp] theorem State.packed_accept (s : State) (w : Word) : (s.accept w).packed = s.packed := State.packed_congr (by simp)
@[simp] theorem State.outChar_accept (s : State) (w : Word) : (s.accept w).outChar = s.outChar := State.outChar_congr (by simp)
@[simp] theorem State.preview_accept (s : State) (w : Word) : (s.accept w).preview = s.preview := State.preview_congr (by simp)

end Sys2Proof.Machine
end

