-- ==== Sys2Proof/Laws/Step.lean ====
section
/-! SUPPORT. What one step can do, said once, and many steps. -/

namespace Sys2Proof.Machine

/-! The step by its next event -/

theorem step_nil {s : State} (h : s.events = []) : step s = tick s := by
  simp [step, nextEvent, h]

theorem step_idle {s : State} {e : Event} {rest : List Event} (hb : s.status.busy = false)
    (h : s.events = e :: rest) : step s = idleEvent e { s with events := rest } := by
  simp [step, nextEvent, h, hb]

theorem step_busy {s : State} {e : Event} {rest : List Event} (hb : s.status.busy = true)
    (h : s.events = e :: rest) : step s = busyEvent e { s with events := rest } := by
  simp [step, nextEvent, h, hb]

/-- A host move on an idle core. -/
theorem step_move {s : State} {m : HostMove} {rest : List Event} (hb : s.status.busy = false)
    (h : s.events = .move m :: rest) : step s = hostMove m { s with events := rest } := step_idle hb h

/-- The write of a command word to an idle core (R149). -/
theorem step_command {s : State} {w : Word} {rest : List Event} (hb : s.status.busy = false)
    (h : s.events = .move (.writeReg 0#3 w) :: rest) : step s = issue w { s with events := rest } := by
  rw [step_move hb h]; simp [hostMove]

theorem issue_command {w : Word} {i : Instr} (h : decode w = .command i) (s : State) : issue w s = exec i s := by
  simp [issue, h]

theorem issue_illegal {w : Word} {e : DecodeError} (h : decode w = .illegal e) (s : State) :
    issue w s = .next (s.raise .illegalCommand) := by
  simp [issue, h, execIllegal]

/-- Every command word, legal or not, has a successor (R150). -/
theorem issue_total (w : Word) (s : State) : ∃ t, issue w s = .next t := by
  cases h : decode w with
  | command i => rw [issue_command h]; exact exec_total i s
  | illegal e => exact ⟨_, issue_illegal h s⟩

/-- An elementary step always has a successor (R156). -/
theorem tick_total (s : State) : ∃ t, tick s = .next t := by
  unfold tick
  split <;> exact ⟨_, rfl⟩

/-- Every host move on an idle core has a successor (R150, R175). -/
theorem hostMove_total (m : HostMove) (s : State) : ∃ t, hostMove m s = .next t := by
  cases m with
  | writeReg n v =>
    simp only [hostMove]
    split
    · exact issue_total v s
    · exact ⟨_, rfl⟩
  | _ => exact ⟨_, rfl⟩

theorem idleEvent_total (e : Event) (s : State) : ∃ t, idleEvent e s = .next t := by
  cases e with
  | move m => exact hostMove_total m s
  | start w => exact ⟨_, rfl⟩
  | tick => exact tick_total s

/-- What an event can do to a core with a command in execution (R196, R197). -/
theorem busyEvent_cases (e : Event) (s : State) :
    (e = .tick ∧ busyEvent e s = tick s) ∨ (e = .move .reset ∧ busyEvent e s = .next s.hostReset) ∨
    (e = .move (.readReg 1#3) ∧ busyEvent e s = .next (s.answer (.reg s.status.word))) ∨
    (e ≠ .tick ∧ e ≠ .move .reset ∧ e ≠ .move (.readReg 1#3) ∧ busyEvent e s = .refused .accessWhileBusy) := by
  cases e with
  | tick => exact .inl ⟨rfl, rfl⟩
  | start w => right; right; right; simp [busyEvent]
  | move m =>
    cases m with
    | reset => right; left; exact ⟨rfl, rfl⟩
    | readReg n =>
      by_cases hn : n = 1#3
      · right; right; left; subst hn; exact ⟨rfl, rfl⟩
      · right; right; right; simp [busyEvent, hn]
    | _ => right; right; right; simp [busyEvent]

/-! Reset (R190, R191) -/

@[simp] theorem Memory.afterReset_idle {w : Nat} (m : Memory w) (sp : MemSpace) (n : Nat) :
    m.afterReset sp .idle n = m := if_pos rfl

theorem Memory.afterReset_running {w : Nat} (m : Memory w) (sp : MemSpace) {p : Phase} (n : Nat) (h : p ≠ .idle) :
    m.afterReset sp p n = ⟨.unspecified sp n, []⟩ := if_neg h

theorem Memory.afterReset_wf {w N : Nat} {m : Memory w} (hm : m.wf N) (sp : MemSpace) (p : Phase) (n : Nat) :
    (m.afterReset sp p n).wf N := by
  unfold Memory.afterReset
  split
  · exact hm
  · exact Memory.fresh_wf N sp n

/-- A reset happens at any time (R196). -/
theorem step_reset {s : State} {rest : List Event} (h : s.events = .move .reset :: rest) :
    step s = .next (State.hostReset { s with events := rest }) := by
  cases hb : s.status.busy with
  | true => rw [step_busy hb h]; rfl
  | false => rw [step_idle hb h]; rfl

/-! `STATUS` and the elementary steps -/

/-- What an elementary step can make of `STATUS`: nothing, a completion or a raise (R149, R151, R170). -/
theorem tick_status {s t : State} (h : tick s = .next t) :
    t.status = s.status ∨ t.status = s.status.complete ∨ ∃ e, t.status = s.status.raise e := by
  unfold tick at h
  split at h <;> injection h with h <;> subst h
  · exact .inl rfl
  · exact .inr (.inl rfl)
  · exact .inr (.inl rfl)
  · exact .inr (.inl rfl)
  · exact .inr (.inr ⟨_, rfl⟩)
  · unfold State.tickDims
    split
    · exact .inl rfl
    · exact .inr (.inr ⟨_, rfl⟩)
  · unfold State.tickAddr
    split
    · split <;> exact .inl rfl
    · exact .inr (.inr ⟨_, rfl⟩)
  · unfold State.tickClear
    dsimp only
    split <;> exact .inl rfl
  · unfold State.tickScan
    dsimp only
    split
    · split
      · exact .inl (State.scanPlace_status s)
      · exact .inr (.inl (by simp))
    · exact .inl (State.scanPlace_status s)
  · exact .inl rfl
  · unfold State.tickEmit
    dsimp only
    split
    · exact .inl rfl
    · split
      · split
        · exact .inl rfl
        · exact .inr (.inl rfl)
      · exact .inl rfl
  · unfold State.tickRebuild
    dsimp only
    split
    · exact .inr (.inl rfl)
    · exact .inl rfl

/-! The memory and register moves -/

@[simp] theorem readRegister_cmd (s : State) : s.readRegister 0#3 = 0x0000#16 := rfl
@[simp] theorem readRegister_status (s : State) : s.readRegister 1#3 = s.status.word := rfl
@[simp] theorem readRegister_base (s : State) : s.readRegister 2#3 = s.base := rfl
@[simp] theorem readRegister_dimw (s : State) : s.readRegister 3#3 = s.dimw := rfl
@[simp] theorem readRegister_dimh (s : State) : s.readRegister 4#3 = s.dimh := rfl
@[simp] theorem readRegister_csum (s : State) : s.readRegister 5#3 = csumWord s.csacc := rfl
@[simp] theorem readRegister_reserved6 (s : State) : s.readRegister 6#3 = 0x0000#16 := rfl
@[simp] theorem readRegister_reserved7 (s : State) : s.readRegister 7#3 = 0x0000#16 := rfl

/-- A register number is one of eight (R21). -/
theorem regNumber_cases (n : BitVec 3) :
    n = 0#3 ∨ n = 1#3 ∨ n = 2#3 ∨ n = 3#3 ∨ n = 4#3 ∨ n = 5#3 ∨ n = 6#3 ∨ n = 7#3 := by
  revert n; decide

@[simp] theorem writeRegister_base (s : State) (v : Word) : s.writeRegister 2#3 v = { s with base := v } := rfl
@[simp] theorem writeRegister_dimw (s : State) (v : Word) : s.writeRegister 3#3 v = { s with dimw := v } := rfl
@[simp] theorem writeRegister_dimh (s : State) (v : Word) : s.writeRegister 4#3 v = { s with dimh := v } := rfl
@[simp] theorem writeRegister_status (s : State) (v : Word) : s.writeRegister 1#3 v = s := rfl
@[simp] theorem writeRegister_csum (s : State) (v : Word) : s.writeRegister 5#3 v = s := rfl
@[simp] theorem writeRegister_reserved6 (s : State) (v : Word) : s.writeRegister 6#3 v = s := rfl
@[simp] theorem writeRegister_reserved7 (s : State) (v : Word) : s.writeRegister 7#3 v = s := rfl

/-! Many steps -/

@[simp] theorem steps_zero (s : State) : steps 0 s = .next s := rfl

theorem steps_succ_of_next {s t : State} (n : Nat) (h : step s = .next t) : steps (n + 1) s = steps n t := by
  simp [steps, h]

/-- Steps one after the other. -/
theorem steps_add {s t : State} {m : Nat} (n : Nat) (h : steps m s = .next t) : steps (m + n) s = steps n t := by
  induction m generalizing s with
  | zero =>
    simp only [steps_zero, Host.Outcome.next.injEq] at h
    subst h; rw [Nat.zero_add]
  | succ m ih =>
    cases hs : step s with
    | next u =>
      rw [steps_succ_of_next m hs] at h
      rw [Nat.succ_add, steps_succ_of_next (m + n) hs]
      exact ih h
    | fault f => simp [steps, hs] at h
    | refused r => simp [steps, hs] at h

/-- An idle core with nothing to happen stays as it is (R192). -/
theorem step_idle_nil {s : State} (h : s.events = []) (hp : s.seq.phase = .idle) : step s = .next s := by
  rw [step_nil h]; simp [tick, hp]

theorem steps_idle_nil {s : State} (h : s.events = []) (hp : s.seq.phase = .idle) (n : Nat) :
    steps n s = .next s := by
  induction n with
  | zero => rfl
  | succ n ih => rw [steps_succ_of_next n (step_idle_nil h hp), ih]

/-- A run that reaches an idle core with nothing left to happen has that as its end. -/
theorem steps_settled {s t : State} {n : Nat} (h : steps n s = .next t) (he : t.events = []) (hp : t.seq.phase = .idle)
    {m : Nat} (hm : n ≤ m) : steps m s = .next t := by
  obtain ⟨k, rfl⟩ := Nat.exists_eq_add_of_le hm
  rw [steps_add k h, steps_idle_nil he hp]

/-- A run from `s` comes to `t`. -/
def Reaches (s t : State) : Prop := ∃ n, steps n s = .next t

theorem Reaches.of_step {s t : State} (h : step s = .next t) : Reaches s t := ⟨1, steps_succ_of_next 0 h⟩

theorem Reaches.trans {s t u : State} (h : Reaches s t) (h' : Reaches t u) : Reaches s u := by
  obtain ⟨m, hm⟩ := h
  obtain ⟨n, hn⟩ := h'
  exact ⟨m + n, by rw [steps_add n hm, hn]⟩

/-- A run that comes to an idle core with nothing left to happen ends there. -/
theorem Reaches.settled {s t : State} (h : Reaches s t) (he : t.events = []) (hp : t.seq.phase = .idle) :
    ∃ n, ∀ m, n ≤ m → steps m s = .next t := by
  obtain ⟨n, hn⟩ := h
  exact ⟨n, fun m hm => steps_settled hn he hp hm⟩

/-- A loop of the sequencer: `n` steps that each carry `P k` to `P (k + 1)`. -/
theorem steps_loop {P : Nat → State → Prop} {n : Nat}
    (hstep : ∀ k s, k < n → P k s → ∃ t, step s = .next t ∧ P (k + 1) t) {s : State} (h : P 0 s) :
    ∃ t, steps n s = .next t ∧ P n t := by
  have key : ∀ m k (s : State), k + m = n → P k s → ∃ t, steps m s = .next t ∧ P n t := by
    intro m
    induction m with
    | zero => intro k s hk hp; exact ⟨s, rfl, by simpa using hk ▸ hp⟩
    | succ m ih =>
      intro k s hk hp
      obtain ⟨t, ht, hpt⟩ := hstep k s (by omega) hp
      obtain ⟨u, hu, hpu⟩ := ih (k + 1) t (by omega) hpt
      exact ⟨u, by rw [steps_succ_of_next m ht, hu], hpu⟩
  exact key n 0 s (by omega) h

end Sys2Proof.Machine
end

