-- ==== Sys2Proof/Laws/Sequencer.lean ====
section
/-! SUPPORT. The loops of the sequencer (R120, R132, R143): where the counters stand after n elementary steps, what each
loop has written by then, and what it has written at its end. -/

namespace Sys2Proof.Machine

/-! The odometer of the scans (R36) -/

/-- The sequencer at the `n`-th place of a scan, n in 0..8191. -/
def placeSeq (p : Phase) (n : Nat) : Seq :=
  { Seq.enter p with b := BitVec.ofNat 3 (n / 1024), c := BitVec.ofNat 7 (n / 8 % 128), row := BitVec.ofNat 3 (n % 8) }

@[simp] theorem placeSeq_phase (p : Phase) (n : Nat) : (placeSeq p n).phase = p := rfl

theorem placeSeq_b {p : Phase} {n : Nat} (h : n < 8192) : (placeSeq p n).b.toNat = n / 1024 := by
  simp [placeSeq]; omega

theorem placeSeq_c (p : Phase) (n : Nat) : (placeSeq p n).c.toNat = n / 8 % 128 := by
  simp [placeSeq]

theorem placeSeq_row (p : Phase) (n : Nat) : (placeSeq p n).row.toNat = n % 8 := by
  simp [placeSeq]

theorem placeSeq_y (p : Phase) (n : Nat) : (placeSeq p n).y = 7 - n % 8 := by
  rw [Seq.y_eq, placeSeq_row]

/-- The `PB` byte of the `n`-th place is byte `n / 8` (R36, R60). -/
theorem placeSeq_packedPlace {p : Phase} {n : Nat} (h : n < 8192) : (placeSeq p n).packedPlace = n / 8 := by
  rw [Seq.packedPlace, packedIndex_eq, placeSeq_b h, placeSeq_c]; omega

theorem placeSeq_rowPlace {p : Phase} {n : Nat} (h : n < 8192) :
    (placeSeq p n).rowPlace = 8 * (n / 1024) + (7 - n % 8) := by
  rw [Seq.rowPlace_eq, placeSeq_b h, placeSeq_y, bitRow_eq]

theorem placeSeq_zero (p : Phase) : placeSeq p 0 = Seq.enter p := rfl

theorem bitVec_beq_iff {w : Nat} (x y : BitVec w) : (x == y) = decide (x.toNat = y.toNat) := by
  rw [Bool.eq_iff_iff]; simp [BitVec.toNat_inj]

theorem lastPlace_placeSeq {p : Phase} {n : Nat} (h : n < 8192) :
    (placeSeq p n).lastPlace = decide (n = 8191) := by
  rw [Seq.lastPlace_eq, bitVec_beq_iff, bitVec_beq_iff, bitVec_beq_iff, placeSeq_b h, placeSeq_c, placeSeq_row,
    Bool.eq_iff_iff]
  simp
  omega

theorem nextPlace_placeSeq {p : Phase} {n : Nat} (h : n < 8191) :
    (placeSeq p n).nextPlace = placeSeq p (n + 1) := by
  have hb := @placeSeq_b p n (by omega)
  have hb' := @placeSeq_b p (n + 1) (by omega)
  have hc := placeSeq_c p n
  have hc' := placeSeq_c p (n + 1)
  have hr := placeSeq_row p n
  have hr' := placeSeq_row p (n + 1)
  simp only [Seq.nextPlace_eq]
  rw [bitVec_beq_iff, bitVec_beq_iff, hc, hr]
  by_cases h7 : n % 8 = 7
  · by_cases h127 : n / 8 % 128 = 127
    · rw [if_pos (by simp [h7]), if_pos (by simp [h127])]
      ext1 <;> try rfl
      all_goals apply BitVec.eq_of_toNat_eq; simp only [BitVec.toNat_add, BitVec.toNat_ofNat, hb, hb', hc', hr']; omega
    · rw [if_pos (by simp [h7]), if_neg (by simp [h127])]
      ext1 <;> try rfl
      all_goals
        apply BitVec.eq_of_toNat_eq; simp only [BitVec.toNat_add, BitVec.toNat_ofNat, hb, hb', hc, hc', hr']; omega
  · rw [if_neg (by simp [h7])]
    ext1 <;> try rfl
    all_goals
      apply BitVec.eq_of_toNat_eq
      simp only [BitVec.toNat_add, BitVec.toNat_ofNat, hb, hb', hc, hc', hr, hr']
      omega

/-! The scan that writes `PV` (R143) -/

/-- The state after `n` places of the scan of `UNPACK`, started from `s`. -/
def RebuildAt (s : State) (conv : Bool) (n : Nat) (t : State) : Prop :=
  ∃ m : Memory 8, t = { s with pv := m, seq := placeSeq (.rebuild conv) n } ∧ m.wf 8192 ∧
    m.background = s.pv.background ∧
    ∀ a, a < 8192 → gridTurn a < n →
      cellAt m.cells a = m.background.entry (previewPixel s.packed (a % 128) (a / 128))

/-- The write of one place of the scan. -/
theorem rebuild_write {P : Nat → Byte} {n : Nat} (hn : n < 8192) {m : Memory 8} (hm : m.wf 8192)
    (hc : ∀ a, a < 8192 → gridTurn a < n →
      cellAt m.cells a = m.background.entry (previewPixel P (a % 128) (a / 128)))
    {m' : Memory 8} (hm' : m' = m.write (gridPlace n) (previewOf ((P (n / 8)).getLsbD (7 - n % 8)))) :
    m'.wf 8192 ∧ m'.background = m.background ∧ ∀ a, a < 8192 → gridTurn a < n + 1 →
      cellAt m'.cells a = m'.background.entry (previewPixel P (a % 128) (a / 128)) := by
  subst hm'
  refine ⟨Memory.write_wf _ hm (gridPlace_lt hn), by simp, fun a ha ht => ?_⟩
  by_cases h : a = gridPlace n
  · subst h
    rw [Memory.cellAt_write_same, Memory.write_background, gridPlace_mod, gridPlace_div]
    simp only [previewPixel_eq, packedIndex_eq]
    rw [rowBit_eq, show (8 * (n / 1024) + (7 - n % 8)) % 8 = 7 - n % 8 by omega,
      show n / 8 % 128 + 128 * ((8 * (n / 1024) + (7 - n % 8)) / 8) = n / 8 by omega]
  · rw [Memory.cellAt_write_other _ _ h, Memory.write_background]
    refine hc a ha ?_
    rcases Nat.lt_or_ge (gridTurn a) n with h' | h'
    · exact h'
    · exact absurd (by rw [← gridPlace_gridTurn a, show gridTurn a = n by omega]) h

/-- One elementary step of the scan, from place `n`. -/
theorem tickRebuild_placeSeq (s : State) (m : Memory 8) (conv : Bool) {n : Nat} (hn : n < 8192) :
    State.tickRebuild { s with pv := m, seq := placeSeq (.rebuild conv) n } =
      let m' := m.write (gridPlace n) (previewOf ((s.packed (n / 8)).getLsbD (7 - n % 8)))
      if n = 8191 then State.complete { s with pv := m' }
      else { s with pv := m', seq := placeSeq (.rebuild conv) (n + 1) } := by
  unfold State.tickRebuild
  simp only [placeSeq_c, placeSeq_rowPlace hn, placeSeq_y, placeSeq_packedPlace hn, lastPlace_placeSeq hn]
  by_cases h : n = 8191
  · simp only [h, decide_true, if_true]; rfl
  · simp only [h, decide_false, if_false, nextPlace_placeSeq (show n < 8191 by omega)]; rfl

theorem rebuild_step {s : State} (he : s.events = []) (conv : Bool) (n : Nat) (t : State) (hn : n < 8191)
    (h : RebuildAt s conv n t) : ∃ u, step t = .next u ∧ RebuildAt s conv (n + 1) u := by
  obtain ⟨m, rfl, hm, hb, hc⟩ := h
  obtain ⟨hwf, hbg, hcell⟩ := rebuild_write (P := s.packed) (by omega) hm hc rfl
  refine ⟨_, (step_nil (by exact he)).trans rfl, _, ?_, hwf, hbg.trans hb, hcell⟩
  rw [tickRebuild_placeSeq s m conv (show n < 8192 by omega)]
  exact if_neg (by omega)

/-- The whole scan of `UNPACK` from its first place (R143, R152): `PV` is written as a whole and the command
completes. -/
theorem rebuild_steps {s : State} (he : s.events = []) (hm : s.pv.wf 8192) (conv : Bool)
    (hq : s.seq = Seq.enter (.rebuild conv)) : steps 8192 s = .next s.unpackAll.complete := by
  have h0 : RebuildAt s conv 0 s :=
    ⟨s.pv, by rw [placeSeq_zero, ← hq], hm, rfl, fun a _ h => absurd h (by omega)⟩
  obtain ⟨t, ht, m, rfl, hm', hb, hc⟩ := steps_loop (P := RebuildAt s conv) (n := 8191)
    (fun k u hk hu => rebuild_step he conv k u hk hu) h0
  obtain ⟨hwf, hbg, hcell⟩ := rebuild_write (P := s.packed) (n := 8191) (by omega) hm' hc rfl
  rw [steps_add (m := 8191) 1 ht, steps_succ_of_next 0 ((step_nil (by exact he)).trans rfl), steps_zero,
    tickRebuild_placeSeq s m conv (show 8191 < 8192 by omega)]
  have hpv := Memory.eq_writeAll (m' := s.pv) hwf (hbg.trans hb)
    (fun a ha => hcell a ha (Nat.lt_of_lt_of_le (gridTurn_lt ha) (by omega)))
  simp only [if_true, hpv]
  rfl

/-! Memories written from index 0 upwards -/

/-- `m` holds `f` at the indices below `n`, over the background `bg`. -/
def WrittenTo {w : Nat} (bg : Background w) (N : Nat) (f : Nat → BitVec w) (n : Nat) (m : Memory w) : Prop :=
  m.wf N ∧ m.background = bg ∧ ∀ a, a < n → cellAt m.cells a = bg.entry (f a)

theorem WrittenTo.start {w N : Nat} {m : Memory w} (hm : m.wf N) (f : Nat → BitVec w) :
    WrittenTo m.background N f 0 m := ⟨hm, rfl, fun _ h => absurd h (by omega)⟩

theorem WrittenTo.write {w N n : Nat} {bg : Background w} {f : Nat → BitVec w} {m : Memory w} {v : BitVec w}
    (h : WrittenTo bg N f n m) (hn : n < N) (hv : v = f n) : WrittenTo bg N f (n + 1) (m.write n v) := by
  obtain ⟨hm, hb, hc⟩ := h
  refine ⟨Memory.write_wf _ hm hn, by simpa using hb, fun a ha => ?_⟩
  by_cases hA : a = n
  · subst hA; rw [Memory.cellAt_write_same, hb, hv]
  · rw [Memory.cellAt_write_other _ _ hA, hc a (by omega)]

theorem WrittenTo.all {w N : Nat} {f : Nat → BitVec w} {m m' : Memory w} (h : WrittenTo m'.background N f N m) :
    m = m'.writeAll N f := by
  obtain ⟨hm, hb, hc⟩ := h
  exact Memory.eq_writeAll hm hb fun a ha => by rw [hc a ha, hb]

/-! The clearing pass (R120 phase 1) -/

/-- The sequencer at byte `n` of the clearing pass. -/
def clearSeq (conv : Bool) (n : Nat) : Seq := { Seq.enter (.clear conv) with j := BitVec.ofNat 10 n }

/-- The state after `n` steps of the clearing pass, started from `s`. -/
def ClearAt (s : State) (conv : Bool) (n : Nat) (t : State) : Prop :=
  ∃ m : Memory 8, t = { s with pb := m, seq := clearSeq conv n } ∧
    WrittenTo s.pb.background 1024 (fun _ => 0x00#8) n m

/-- One step of the clearing pass, from byte `n`. -/
theorem tickClear_at (s : State) (m : Memory 8) (conv : Bool) {n : Nat} (hn : n < 1024) :
    State.tickClear conv { s with pb := m, seq := clearSeq conv n } =
      if n = 1023 then { s with pb := m.write n 0x00#8, seq := Seq.enter (.scan conv) }
      else { s with pb := m.write n 0x00#8, seq := clearSeq conv (n + 1) } := by
  have hj : (clearSeq conv n).j.toNat = n := by simp [clearSeq]; omega
  simp only [State.tickClear_eq]
  simp only [bitVec_beq_iff, hj]
  by_cases h : n = 1023
  · rw [if_pos (by simp [h]), if_pos h]
  · rw [if_neg (by simp [h]), if_neg h, clearSeq, clearSeq, BitVec.ofNat_add]

/-- The whole clearing pass (R119, R120 phase 1). -/
theorem clear_steps {s : State} (he : s.events = []) (hm : s.pb.wf 1024) (conv : Bool)
    (hq : s.seq = Seq.enter (.clear conv)) :
    steps 1024 s = .next { s with
      pb := s.pb.writeAll 1024 (fun _ => 0x00#8)
      seq := Seq.enter (.scan conv) } := by
  have h0 : ClearAt s conv 0 s :=
    ⟨s.pb, by rw [show clearSeq conv 0 = s.seq from hq.symm], WrittenTo.start hm _⟩
  obtain ⟨t, ht, m, rfl, hw⟩ := steps_loop (P := ClearAt s conv) (n := 1023) (fun k u hk hu => by
    obtain ⟨m, rfl, hw⟩ := hu
    refine ⟨_, (step_nil (by exact he)).trans rfl, _, ?_, hw.write (show k < 1024 by omega) rfl⟩
    rw [tickClear_at s m conv (show k < 1024 by omega), if_neg (by omega)]) h0
  rw [steps_add (m := 1023) 1 ht, steps_succ_of_next 0 ((step_nil (by exact he)).trans rfl), steps_zero,
    tickClear_at s m conv (show 1023 < 1024 by omega), if_pos rfl, (hw.write (show 1023 < 1024 by omega) rfl).all]

/-! The scan of `PACK` (R120 phase 2) -/

/-- Byte `j` of `PB` after the first `n` turns of the scan. -/
def scanByte (G : Nat → Nat → Pixel) (n j : Nat) : Byte :=
  BitVec.ofNat 8 (bitSum (fun y => on (G (j % 128) (8 * (j / 128) + y)) && decide (8 * j + (7 - y) < n)) 8)

theorem scanByte_getLsbD (G : Nat → Nat → Pixel) (n j : Nat) {y : Nat} (h : y < 8) :
    (scanByte G n j).getLsbD y = (on (G (j % 128) (8 * (j / 128) + y)) && decide (8 * j + (7 - y) < n)) := by
  unfold scanByte
  rw [BitVec.getLsbD_ofNat, testBit_bitSum]
  simp [h]

theorem scanByte_zero (G : Nat → Nat → Pixel) (j : Nat) : scanByte G 0 j = 0x00#8 :=
  byte_ext fun y hy => by rw [scanByte_getLsbD _ _ _ hy]; simp

theorem scanByte_all (G : Nat → Nat → Pixel) {j : Nat} (h : j < 1024) : scanByte G 8192 j = packByte G j :=
  byte_ext fun y hy => by
    rw [scanByte_getLsbD _ _ _ hy, packByte_getLsbD _ _ hy, decide_eq_true (by omega), Bool.and_true]

/-- The byte a turn does not visit keeps its value. -/
theorem scanByte_other (G : Nat → Nat → Pixel) {n j : Nat} (h : j ≠ n / 8) : scanByte G (n + 1) j = scanByte G n j :=
  byte_ext fun y hy => by
    rw [scanByte_getLsbD _ _ _ hy, scanByte_getLsbD _ _ _ hy]
    congr 1
    rw [decide_eq_decide]; omega

/-- The byte a turn visits: its bit is set when the pixel is on. -/
theorem scanByte_visit (G : Nat → Nat → Pixel) (n : Nat) :
    scanByte G (n + 1) (n / 8) =
      if on (G (n / 8 % 128) (8 * (n / 1024) + (7 - n % 8))) then scanByte G n (n / 8) ||| (1#8 <<< (7 - n % 8))
      else scanByte G n (n / 8) := by
  have hd : n / 8 / 128 = n / 1024 := by omega
  apply byte_ext
  intro y hy
  have hbit := fun m => scanByte_getLsbD G m (n / 8) hy
  rw [hd] at hbit
  obtain ⟨z, hz⟩ : ∃ z, z = 7 - n % 8 := ⟨_, rfl⟩
  rw [← hz, hbit]
  have hone : (1#8 <<< z).getLsbD y = decide (y = z) := by
    have : z < 8 := by omega
    clear hz hbit
    revert y z
    decide
  by_cases hv : y = z
  · subst hv
    rw [decide_eq_true (show 8 * (n / 8) + (7 - y) < n + 1 by omega), Bool.and_true]
    by_cases hon : on (G (n / 8 % 128) (8 * (n / 1024) + y)) = true
    · rw [if_pos hon, BitVec.getLsbD_or, hone, hon]; simp
    · rw [if_neg hon, hbit]; simp [hon]
  · rw [decide_eq_decide.mpr (show 8 * (n / 8) + (7 - y) < n + 1 ↔ 8 * (n / 8) + (7 - y) < n by omega)]
    split
    · rw [BitVec.getLsbD_or, hone, decide_eq_false hv, Bool.or_false, hbit]
    · exact (hbit n).symm

/-- The state after `n` turns of the scan, started from `s` with `PB` cleared. -/
def ScanAt (s : State) (conv : Bool) (n : Nat) (t : State) : Prop :=
  ∃ m : Memory 8, t = { s with pb := m, seq := placeSeq (.scan conv) n } ∧ m.wf 1024 ∧
    m.background = s.pb.background ∧
    ∀ j, j < 1024 → cellAt m.cells j = m.background.entry (scanByte s.pixel n j)

/-- What the write of one turn leaves in `PB`. -/
def scanWrite (G : Nat → Nat → Pixel) (m : Memory 8) (n : Nat) : Memory 8 :=
  if on (G (n / 8 % 128) (8 * (n / 1024) + (7 - n % 8))) then
    m.write (n / 8) (m.read (n / 8) ||| (1#8 <<< (7 - n % 8)))
  else m

theorem scanWrite_spec {G : Nat → Nat → Pixel} {m : Memory 8} {n : Nat} (hn : n < 8192) (hm : m.wf 1024)
    (hc : ∀ j, j < 1024 → cellAt m.cells j = m.background.entry (scanByte G n j)) :
    (scanWrite G m n).wf 1024 ∧ (scanWrite G m n).background = m.background ∧
    ∀ j, j < 1024 → cellAt (scanWrite G m n).cells j = (scanWrite G m n).background.entry (scanByte G (n + 1) j) := by
  have hj : n / 8 < 1024 := by omega
  have hread := m.read_of_entry _ _ (hc _ hj)
  unfold scanWrite
  by_cases hon : on (G (n / 8 % 128) (8 * (n / 1024) + (7 - n % 8))) = true
  · rw [if_pos hon]
    refine ⟨Memory.write_wf _ hm hj, by simp, fun j hlt => ?_⟩
    by_cases h : j = n / 8
    · subst h
      rw [Memory.cellAt_write_same, Memory.write_background, scanByte_visit, if_pos hon, hread]
    · rw [Memory.cellAt_write_other _ _ h, Memory.write_background, scanByte_other _ h, hc j hlt]
  · rw [if_neg hon]
    refine ⟨hm, rfl, fun j hlt => ?_⟩
    by_cases h : j = n / 8
    · subst h; rw [scanByte_visit, if_neg hon, hc _ hlt]
    · rw [scanByte_other _ h, hc j hlt]

/-- One turn of the scan, from place `n`. -/
theorem tickScan_placeSeq (s : State) (m : Memory 8) (conv : Bool) {n : Nat} (hn : n < 8192) :
    State.tickScan conv { s with pb := m, seq := placeSeq (.scan conv) n } =
      if n = 8191 then
        (if conv then State.startEncode true { s with pb := scanWrite s.pixel m n }
        else State.complete { s with pb := scanWrite s.pixel m n })
      else { s with pb := scanWrite s.pixel m n, seq := placeSeq (.scan conv) (n + 1) } := by
  have hplace : State.scanPlace { s with pb := m, seq := placeSeq (.scan conv) n } =
      { s with pb := scanWrite s.pixel m n, seq := placeSeq (.scan conv) n } := by
    unfold State.scanPlace scanWrite
    simp only [placeSeq_c, placeSeq_rowPlace hn, placeSeq_y, placeSeq_packedPlace hn]
    show (if on (s.pixel (n / 8 % 128) (8 * (n / 1024) + (7 - n % 8))) = true then _ else _) = _
    by_cases hon : on (s.pixel (n / 8 % 128) (8 * (n / 1024) + (7 - n % 8))) = true
    · rw [if_pos hon, if_pos hon]; rfl
    · rw [if_neg hon, if_neg hon]
  unfold State.tickScan
  simp only [hplace, lastPlace_placeSeq hn]
  by_cases h : n = 8191
  · simp only [h, decide_true, if_true]; cases conv <;> rfl
  · simp only [h, decide_false, if_false, nextPlace_placeSeq (show n < 8191 by omega)]; rfl

/-- The whole scan of `PACK` from its first place over a cleared `PB` (R120 phase 2, R152). -/
theorem scan_steps {s : State} (he : s.events = []) (hm : s.pb.wf 1024) (conv : Bool)
    (hz : ∀ j, j < 1024 → cellAt s.pb.cells j = s.pb.background.entry 0x00#8)
    (hq : s.seq = Seq.enter (.scan conv)) :
    steps 8192 s = .next (if conv then s.packAll.startEncode true else s.packAll.complete) := by
  have h0 : ScanAt s conv 0 s :=
    ⟨s.pb, by rw [placeSeq_zero, ← hq], hm, rfl, fun j hj => by rw [scanByte_zero, hz j hj]⟩
  obtain ⟨t, ht, m, rfl, hm', hb, hc⟩ := steps_loop (P := ScanAt s conv) (n := 8191) (fun k u hk hu => by
    obtain ⟨m, rfl, hm, hb, hc⟩ := hu
    obtain ⟨hwf, hbg, hcell⟩ := scanWrite_spec (show k < 8192 by omega) hm hc
    refine ⟨_, (step_nil (by exact he)).trans rfl, _, ?_, hwf, hbg.trans hb, hcell⟩
    rw [tickScan_placeSeq s m conv (show k < 8192 by omega)]
    exact if_neg (by omega)) h0
  obtain ⟨hwf, hbg, hcell⟩ := scanWrite_spec (G := s.pixel) (n := 8191) (by omega) hm' hc
  have hpb := Memory.eq_writeAll (m' := s.pb) (f := packByte s.pixel) hwf (hbg.trans hb)
    (fun a ha => by rw [hcell a ha, scanByte_all _ ha])
  rw [steps_add (m := 8191) 1 ht, steps_succ_of_next 0 ((step_nil (by exact he)).trans rfl), steps_zero,
    tickScan_placeSeq s m conv (show 8191 < 8192 by omega)]
  simp only [if_true, hpb]
  cases conv <;> rfl


/-- `PACK` from its clearing pass on (R120, R152): `PB` is written as a whole. -/
theorem pack_steps {s : State} (he : s.events = []) (hm : s.pb.wf 1024) (conv : Bool)
    (hq : s.seq = Seq.enter (.clear conv)) :
    Reaches s (if conv then s.packAll.startEncode true else s.packAll.complete) := by
  refine Reaches.trans ⟨1024, clear_steps he hm conv hq⟩ ⟨8192, (scan_steps ?_ ?_ conv ?_ rfl).trans ?_⟩
  · exact he
  · exact Memory.writeAll_wf _ _ _
  · intro j hj
    simp only [Memory.cellAt_writeAll, hj, if_true, Memory.writeAll_background]
  · cases conv <;> rfl

/-! The records of `ENCODE` (R132) -/

/-- Character `a` of `OUT` as `ENCFN` gives it (R129). -/
def encChar (s : State) (a : Nat) : Byte := lineChar s.base s.packed (a / 43) (a % 43)

theorem encChar_at (s : State) (i : Nat) {k : Nat} (hk : k < 43) :
    encChar s (outIndex i k) = lineChar s.base s.packed i k := by
  simp only [encChar, outIndex_eq]
  rw [show (43 * i + k) / 43 = i by omega, show (43 * i + k) % 43 = k by omega]

/-- The sequencer at the start of record `i`, with some `RSUM` left from the record before. -/
def loadSeq (s : State) (conv : Bool) (i : Nat) (r : Byte) : Seq :=
  { Seq.enter (.load conv) with i := BitVec.ofNat 6 i, addr17 := BitVec.ofNat 17 (recordAddress s.base i), rsum := r }

/-- The sequencer at byte `k` of record `i`. -/
def emitSeq (s : State) (conv : Bool) (i k : Nat) : Seq :=
  { Seq.enter (.emit conv) with
    i := BitVec.ofNat 6 i
    k := BitVec.ofNat 5 k
    addr17 := BitVec.ofNat 17 (recordAddress s.base i)
    rsum := BitVec.ofNat 8 (byteSum ((recordContent s.base s.packed i).take k)) }

/-- The state at the start of record `i` of an encoding started from `s`: every line before it is written. -/
def LoadAt (s : State) (conv : Bool) (i : Nat) (t : State) : Prop :=
  ∃ (m : Memory 8) (r : Byte), t = { s with out := m, seq := loadSeq s conv i r } ∧
    WrittenTo s.out.background 2752 (encChar s) (outIndex i 0) m

/-- The state at byte `k` of record `i`: the characters before its digits are written. -/
def EmitAt (s : State) (conv : Bool) (i k : Nat) (t : State) : Prop :=
  ∃ m : Memory 8, t = { s with out := m, seq := emitSeq s conv i k } ∧
    WrittenTo s.out.background 2752 (encChar s) (outIndex i (1 + 2 * k)) m

theorem load_step {s : State} (he : s.events = []) (conv : Bool) {i : Nat} (hi : i < 64) {t : State}
    (h : LoadAt s conv i t) : ∃ u, step t = .next u ∧ EmitAt s conv i 0 u := by
  obtain ⟨m, r, rfl, hw⟩ := h
  have hI : (loadSeq s conv i r).i.toNat = i := by simp [loadSeq]; omega
  refine ⟨_, (step_nil (by exact he)).trans rfl, m.write (outIndex i 0) colon, ?_, ?_⟩
  · unfold State.tickLoad
    simp only [hI]
    rfl
  · exact hw.write (by simp only [outIndex_eq]; omega) (by rw [encChar_at s i (by omega), lineChar_zero])

/-- The byte a step of a record emits is the byte of the record (R89, R132). -/
theorem emitByte_at (s : State) (m : Memory 8) (conv : Bool) {i k : Nat} (ha : addrOk s.base = true) (hi : i < 64)
    (hk : k < 21) :
    State.emitByte { s with out := m, seq := emitSeq s conv i k } = (recordBytes s.base s.packed i).getD k 0#8 := by
  have hI : (emitSeq s conv i k).i.toNat = i := by simp [emitSeq]; omega
  have hK : (emitSeq s conv i k).k.toNat = k := by simp [emitSeq]; omega
  have hA := recordAddress_le ha hi
  simp only [State.emitByte_eq]
  simp only [hK, hI]
  split
  · rfl
  · rw [recordBytes_getD_high]
    apply BitVec.eq_of_toNat_eq
    simp only [emitSeq, BitVec.extractLsb'_toNat, Nat.shiftRight_eq_div_pow, BitVec.toNat_ofNat]; omega
  · rw [recordBytes_getD_low]
    apply BitVec.eq_of_toNat_eq
    simp only [emitSeq, BitVec.extractLsb'_toNat, Nat.shiftRight_eq_div_pow, BitVec.toNat_ofNat]; omega
  · rfl
  · rename_i k' h0 h1 h2 h3
    have hne : k ≠ 0 ∧ k ≠ 1 ∧ k ≠ 2 ∧ k ≠ 3 := ⟨h0, h1, h2, h3⟩
    by_cases h20 : k < 20
    · obtain ⟨n, rfl⟩ : ∃ n, k = 4 + n := ⟨k - 4, by omega⟩
      rw [if_pos h20, recordBytes_getD_data _ _ _ (show n < 16 by omega)]
      show s.packed _ = _
      rw [Nat.add_sub_cancel_left]
    · obtain rfl : k = 20 := by omega
      rw [if_neg h20, recordBytes_getD_checksum]
      apply ckOfAcc_of_sum
      simp only [emitSeq]
      rw [List.take_of_length_le (by simp)]
      simp

/-- The digits of byte `k` of record `i` are written (R131). -/
theorem emitDigits_at (s : State) (m : Memory 8) (conv : Bool) {i k : Nat} (ha : addrOk s.base = true) (hi : i < 64)
    (hk : k < 21) (hw : WrittenTo s.out.background 2752 (encChar s) (outIndex i (1 + 2 * k)) m) :
    ∃ m' : Memory 8, State.emitDigits { s with out := m, seq := emitSeq s conv i k } =
        { s with out := m', seq := emitSeq s conv i k } ∧
      WrittenTo s.out.background 2752 (encChar s) (outIndex i (1 + 2 * (k + 1))) m' := by
  have hI : (emitSeq s conv i k).i.toNat = i := by simp [emitSeq]; omega
  have hK : (emitSeq s conv i k).k.toNat = k := by simp [emitSeq]; omega
  refine ⟨_, by unfold State.emitDigits; simp only [emitByte_at s m conv ha hi hk, hI, hK]; rfl, ?_⟩
  have h1 := hw.write (v := hexDigit (((recordBytes s.base s.packed i).getD k 0#8).toNat / 16))
    (by simp only [outIndex_eq]; omega) (by rw [encChar_at s i (by omega), lineChar_high _ _ _ hk])
  rw [show outIndex i (1 + 2 * k) + 1 = outIndex i (2 + 2 * k) by simp only [outIndex_eq]; omega] at h1
  rw [show outIndex i (1 + 2 * (k + 1)) = outIndex i (2 + 2 * k) + 1 by simp only [outIndex_eq]; omega]
  exact h1.write (v := hexDigit (((recordBytes s.base s.packed i).getD k 0#8).toNat % 16))
    (by simp only [outIndex_eq]; omega) (by rw [encChar_at s i (by omega), lineChar_low _ _ _ hk])

theorem byteSum_take_succ (l : List Byte) {k : Nat} (h : k < l.length) :
    byteSum (l.take (k + 1)) = byteSum (l.take k) + (l.getD k 0#8).toNat := by
  rw [List.take_succ_eq_append_getElem h, byteSum_append, List.getD_eq_getElem _ _ h]
  simp

theorem emit_step {s : State} (he : s.events = []) (ha : addrOk s.base = true) (conv : Bool) {i k : Nat} (hi : i < 64)
    (hk : k < 20) {t : State} (h : EmitAt s conv i k t) : ∃ u, step t = .next u ∧ EmitAt s conv i (k + 1) u := by
  obtain ⟨m, rfl, hw⟩ := h
  obtain ⟨m', hd, hw'⟩ := emitDigits_at s m conv ha hi (show k < 21 by omega) hw
  have hK : (emitSeq s conv i k).k.toNat = k := by simp [emitSeq]; omega
  refine ⟨_, (step_nil (by exact he)).trans rfl, m', ?_, hw'⟩
  simp only [State.tickEmit_eq]
  simp only [hd, hK, if_pos hk, emitByte_at s m conv ha hi (show k < 21 by omega)]
  congr 1
  ext1 <;> try rfl
  · simp only [emitSeq, BitVec.ofNat_add]
  · apply BitVec.eq_of_toNat_eq
    rw [accumulate_toNat, recordBytes_getD_content _ _ _ hk]
    simp only [emitSeq, BitVec.toNat_ofNat]
    rw [byteSum_take_succ _ (by simpa using hk)]
    omega

/-- The last byte of a record that is not the last. -/
theorem record_end_step {s : State} (he : s.events = []) (ha : addrOk s.base = true) (conv : Bool) {i : Nat}
    (hi : i < 63) {t : State} (h : EmitAt s conv i 20 t) : ∃ u, step t = .next u ∧ LoadAt s conv (i + 1) u := by
  obtain ⟨m, rfl, hw⟩ := h
  obtain ⟨m', hd, hw'⟩ := emitDigits_at s m conv ha (show i < 64 by omega) (show 20 < 21 by omega) hw
  have hI : (emitSeq s conv i 20).i.toNat = i := by simp [emitSeq]; omega
  have hK : (emitSeq s conv i 20).k.toNat = 20 := by simp [emitSeq]
  refine ⟨_, (step_nil (by exact he)).trans rfl, m', (emitSeq s conv i 20).rsum, ?_, hw'⟩
  simp only [State.tickEmit_eq]
  simp only [hd, hK, bitVec_beq_iff, hI]
  rw [if_neg (by omega), if_neg (by simp; omega)]
  congr 1
  ext1 <;> try rfl
  · simp only [emitSeq, loadSeq, BitVec.ofNat_add]
  · apply BitVec.eq_of_toNat_eq
    simp only [emitSeq, loadSeq, recordAddress_eq, BitVec.toNat_add, BitVec.toNat_ofNat]
    omega

/-- One whole record, up to its last byte. -/
theorem record_steps {s : State} (he : s.events = []) (ha : addrOk s.base = true) (conv : Bool) {i : Nat} (hi : i < 64)
    {t : State} (h : LoadAt s conv i t) : ∃ u, steps 21 t = .next u ∧ EmitAt s conv i 20 u := by
  obtain ⟨u, hu, h0⟩ := load_step he conv hi h
  obtain ⟨v, hv, h20⟩ := steps_loop (P := EmitAt s conv i) (n := 20)
    (fun k x hk hx => emit_step he ha conv hi hk hx) h0
  exact ⟨v, by rw [steps_succ_of_next 20 hu, hv], h20⟩

/-- The records before record `i`. -/
theorem records_steps {s : State} (he : s.events = []) (ha : addrOk s.base = true) (conv : Bool)
    (h : LoadAt s conv 0 s) (i : Nat) (hi : i < 64) : ∃ u, steps (22 * i) s = .next u ∧ LoadAt s conv i u := by
  induction i with
  | zero => exact ⟨s, rfl, h⟩
  | succ i ih =>
    obtain ⟨u, hu, hl⟩ := ih (by omega)
    obtain ⟨v, hv, h20⟩ := record_steps he ha conv (show i < 64 by omega) hl
    obtain ⟨x, hx, hl'⟩ := record_end_step he ha conv (show i < 63 by omega) h20
    refine ⟨x, ?_, hl'⟩
    rw [show 22 * (i + 1) = 22 * i + (21 + 1) by omega, steps_add _ hu, steps_add _ hv, steps_succ_of_next 0 hx,
      steps_zero]

/-- The whole encoding from its first record (R132, R152): `OUT` is written as a whole. -/
theorem encode_steps {s : State} (he : s.events = []) (ha : addrOk s.base = true) (hm : s.out.wf 2752) (conv : Bool)
    (hq : s.seq = { Seq.enter (.load conv) with addr17 := s.base.setWidth 17 }) :
    steps 1408 s = .next (if conv then { s.encodeAll with seq := Seq.enter (.rebuild true) }
      else s.encodeAll.complete) := by
  have h0 : LoadAt s conv 0 s := by
    refine ⟨s.out, 0#8, ?_, WrittenTo.start hm _⟩
    have : loadSeq s conv 0 0#8 = s.seq := by
      rw [hq]
      ext1 <;> try rfl
      apply BitVec.eq_of_toNat_eq
      have := s.base.isLt
      simp [loadSeq, recordAddress_eq]
    rw [this]
  obtain ⟨u, hu, hl⟩ := records_steps he ha conv h0 63 (by omega)
  obtain ⟨v, hv, m, rfl, hw⟩ := record_steps he ha conv (show 63 < 64 by omega) hl
  obtain ⟨m', hd, hw'⟩ := emitDigits_at s m conv ha (show 63 < 64 by omega) (show 20 < 21 by omega) hw
  rw [show 1408 = 22 * 63 + (21 + 1) by omega, steps_add _ hu, steps_add _ hv,
    steps_succ_of_next 0 ((step_nil (by exact he)).trans rfl), steps_zero]
  have hI : (emitSeq s conv 63 20).i.toNat = 63 := by simp [emitSeq]
  have hK : (emitSeq s conv 63 20).k.toNat = 20 := by simp [emitSeq]
  have hout : m' = s.out.writeAll 2752 (encChar s) := hw'.all
  simp only [State.tickEmit_eq]
  simp only [hd, hK, bitVec_beq_iff, hI, hout]
  rw [if_neg (by omega), if_pos (by simp)]
  cases conv <;> rfl

/-! The checks -/

/-- The dimension check (R120, R155). -/
theorem dims_step {s : State} (he : s.events = []) (conv : Bool) (hq : s.seq.phase = .dims conv) :
    step s = .next (if s.dimOk then { s with seq := Seq.enter (if conv then .addr true else .clear false) }
      else s.raise .invalidDimensions) := by
  rw [step_nil he]; simp only [tick, hq]; rfl

/-- The address check (R132, R155). -/
theorem addr_step {s : State} (he : s.events = []) (conv : Bool) (hq : s.seq.phase = .addr conv) :
    step s = .next (if addrOk s.base then (if conv then { s with seq := Seq.enter (.clear true) }
      else s.startEncode false) else s.raise .addressOverflow) := by
  rw [step_nil he]; simp only [tick, hq]; rfl

/-- Acceptance of a command word by an idle core (R149). -/
theorem accept_step {s : State} {w : Word} {rest : List Event} (hb : s.status.busy = false)
    (h : s.events = .start w :: rest) : step s = .next (State.accept w { s with events := rest }) := by
  rw [step_idle hb h]; rfl

end Sys2Proof.Machine
end

