-- ==== Sys2Proof/Laws/Invariant.lean ====
section
/-! SUPPORT. Pieces of the machine's invariant (Safety.lean): how a command ends, what keeps it, and the bounds of the
sequencer's places. -/

namespace Sys2Proof.Machine

/-- The places of a scan are inside the memories they visit (R36, R61). -/
theorem Seq.place_bounds (q : Seq) : q.c.toNat < 128 ∧ q.rowPlace < 64 ∧ q.packedPlace < 1024 := by
  have hb := q.b.isLt
  have hc := q.c.isLt
  have hr := q.row.isLt
  simp only [Seq.rowPlace_eq, Seq.packedPlace, Seq.y_eq, packedIndex_eq]
  rw [bitRow_eq]
  omega

theorem Seq.nextPlace_phase (q : Seq) : q.nextPlace.phase = q.phase := by
  simp only [Seq.nextPlace_eq]
  repeat' split
  all_goals rfl

theorem Background.usedBelow_write {w : Nat} {m : Memory w} {n a : Nat} {v : BitVec w}
    (h : m.background.usedBelow n) : (m.write a v).background.usedBelow n := by
  rw [Memory.write_background]; exact h

theorem Background.usedBelow_succ {w : Nat} {bg : Background w} {n : Nat} (h : bg.usedBelow n) :
    bg.usedBelow (n + 1) := by
  cases bg with
  | unspecified sp k => exact Nat.lt_succ_of_lt h
  | filled v => trivial

theorem Background.usedBelow_afterReset {w : Nat} {m : Memory w} {n : Nat} (h : m.background.usedBelow n)
    (sp : MemSpace) (p : Phase) : (m.afterReset sp p n).background.usedBelow (n + 1) := by
  unfold Memory.afterReset
  split
  · exact Background.usedBelow_succ h
  · exact Nat.lt_succ_self n

/-- The first phase of a word is never idle, and only a check or `PV`'s scan can be a first phase with a premise. -/
theorem firstPhase_cases (w : Word) :
    firstPhase w ≠ .idle ∧
    match firstPhase w with
    | .idle => False
    | .nop => True
    | .csclr => True
    | .csadd _ => True
    | .illegal => True
    | .dims _ => True
    | .addr conv => conv = false
    | .rebuild conv => conv = false
    | .clear _ => False
    | .scan _ => False
    | .load _ => False
    | .emit _ => False := by
  unfold firstPhase
  cases decode w with
  | illegal e => exact ⟨by simp, trivial⟩
  | command i => cases i <;> simp

/-- Completion restores the invariant from sound memories alone (R151). -/
theorem State.complete_inv {s : State} (hm : s.memoriesWf)
    (hf : s.pix.background.usedBelow s.fresh ∧ s.pb.background.usedBelow s.fresh ∧
      s.out.background.usedBelow s.fresh ∧ s.pv.background.usedBelow s.fresh) : s.complete.Inv where
  memories := hm
  err := .inl rfl
  sticky := ⟨fun h => absurd (show 0#4 = 1#4 from h) (by decide), fun h => absurd (show 0#4 = 2#4 from h) (by decide),
    fun h => absurd (show 0#4 = 4#4 from h) (by decide)⟩
  done h := by cases h
  busy := ⟨fun h => (by cases h), fun h => absurd rfl h⟩
  seq := rfl
  fresh := hf

/-- So does error entry (R170). -/
theorem State.raise_inv {s : State} (hm : s.memoriesWf)
    (hf : s.pix.background.usedBelow s.fresh ∧ s.pb.background.usedBelow s.fresh ∧
      s.out.background.usedBelow s.fresh ∧ s.pv.background.usedBelow s.fresh) (e : ErrorKind) : (s.raise e).Inv where
  memories := hm
  err := by cases e <;> simp [State.raise, Status.raise, Status.legalErr, ErrorKind.code]
  sticky := by cases e <;> simp [State.raise, Status.raise, ErrorKind.code]
  done h := by cases e <;> cases h
  busy := ⟨fun h => (by cases e <;> cases h), fun h => absurd rfl h⟩
  seq := by cases e <;> rfl
  fresh := hf

end Sys2Proof.Machine
end

