-- ==== Sys2Proof/Laws/PerInstr.lean ====
section
/-! SUPPORT. Statements for all commands, one lemma per constructor. `TableRow`: the word of a command is of the row of
the opcode table that carries its mnemonic. -/

namespace Sys2Proof.Laws.TableRow

/-- The word of a well-formed command is one of the words of its own row, and of no other row (R77). -/
def Statement (i : Instr) : Prop :=
  i.wf = true → ∃ row ∈ opcodeTable, row.mnemonic = mnemonicOf i ∧ row.matchesWord (encode i) = true ∧
    ∀ row' ∈ opcodeTable, row'.matchesWord (encode i) = true → row' = row

theorem nop : Statement .nop := fun _ => ⟨⟨"NOP", 0x0000#16, 0xFFFF#16⟩, by decide, rfl, by decide, by decide⟩
theorem pack : Statement .pack := fun _ => ⟨⟨"PACK", 0x0100#16, 0xFFFF#16⟩, by decide, rfl, by decide, by decide⟩
theorem encode : Statement .encode := fun _ => ⟨⟨"ENCODE", 0x0200#16, 0xFFFF#16⟩, by decide, rfl, by decide, by decide⟩
theorem unpack : Statement .unpack := fun _ => ⟨⟨"UNPACK", 0x0300#16, 0xFFFF#16⟩, by decide, rfl, by decide, by decide⟩
theorem csclr : Statement .csclr := fun _ => ⟨⟨"CSCLR", 0x0400#16, 0xFFFF#16⟩, by decide, rfl, by decide, by decide⟩

theorem csadd (imm8 : Byte) : Statement (.csadd imm8) := fun _ =>
  ⟨⟨"CSADD", 0x0500#16, 0xFF00#16⟩, by decide, rfl, by revert imm8; decide, by revert imm8; decide⟩

theorem convert : Statement .convert := fun _ =>
  ⟨⟨"CONVERT", 0x0600#16, 0xFFFF#16⟩, by decide, rfl, by decide, by decide⟩

end Sys2Proof.Laws.TableRow
end

