-- ==== Sys2Proof/Tests/Slice0.lean ====
section
/-! SUPPORT. Tests: words written out from the encodings, ill-formed lines refused, one step on small states with values
from 95_test_vectors.md, and for every statement with hypotheses a witness that meets them. -/

namespace Sys2Proof.Tests

open Sys2Proof Sys2Proof.Machine

/-! Decoding: words written out bit by bit from R77 (vectors V-DEC) -/

theorem test_decode_nop : decode 0b00000000_00000000#16 = .command .nop := by decide
theorem test_decode_pack : decode 0b00000001_00000000#16 = .command .pack := by decide
theorem test_decode_encode : decode 0b00000010_00000000#16 = .command .encode := by decide
theorem test_decode_unpack : decode 0b00000011_00000000#16 = .command .unpack := by decide
theorem test_decode_csclr : decode 0b00000100_00000000#16 = .command .csclr := by decide
theorem test_decode_csadd : decode 0b00000101_01110001#16 = .command (.csadd 113#8) := by decide
theorem test_decode_convert : decode 0b00000110_00000000#16 = .command .convert := by decide

/-- V-DEC-2, 4, 8, 13, 14: illegal words. -/
theorem test_decode_illegal :
    (∃ e, decode 0x0001#16 = .illegal e) ∧ (∃ e, decode 0x0101#16 = .illegal e) ∧ (∃ e, decode 0x0480#16 = .illegal e) ∧
    (∃ e, decode 0x0601#16 = .illegal e) ∧ (∃ e, decode 0x0700#16 = .illegal e) ∧ (∃ e, decode 0xFFFF#16 = .illegal e) :=
  ⟨⟨_, rfl⟩, ⟨_, rfl⟩, ⟨_, rfl⟩, ⟨_, rfl⟩, ⟨_, rfl⟩, ⟨_, rfl⟩⟩

/-- No word is of two rows of the table: on a bit that both masks keep, the two patterns differ. -/
theorem test_rows_disjoint :
    opcodeTable.Pairwise fun a b => (a.mask &&& b.mask) &&& (a.bits ^^^ b.bits) ≠ 0x0000#16 := by decide

theorem test_decodeTableWord :
    decodeTableWord 16 0x05FF = some (.csadd 0xFF#8) ∧ decodeTableWord 16 0x0600 = some .convert ∧
    decodeTableWord 16 0x0700 = none := by decide

/-! Ill-formed lines (R76, R81, R50), one for each check of WellFormed.lean -/

theorem test_wf_csadd : (Line.csadd 256).wf = false ∧ (Line.csadd 255).wf = true := by decide
theorem test_wf_wr : (Line.wr .base 65536).wf = false ∧ (Line.wr .base 65535).wf = true := by decide
theorem test_wf_pix : (Line.wrm (.pix 128 0) 0).wf = false ∧ (Line.wrm (.pix 0 64) 0).wf = false ∧
    (Line.wrm (.pix 127 63) 16777216).wf = false ∧ (Line.wrm (.pix 127 63) 16777215).wf = true := by decide
theorem test_wf_pb : (Line.wrm (.pb 1024) 0).wf = false ∧ (Line.wrm (.pb 1023) 256).wf = false ∧
    (Line.wrm (.pb 1023) 255).wf = true := by decide
theorem test_wf_store_read_only : (Line.wrm (.out 0 0) 0).wf = false ∧ (Line.wrm (.pv 0 0) 0).wf = false ∧
    (Line.fill .out 0).wf = false ∧ (Line.fill .pv 0).wf = false := by decide
theorem test_wf_rdm : (Line.rdm (.out 64 0)).wf = false ∧ (Line.rdm (.out 63 43)).wf = false ∧
    (Line.rdm (.out 63 42)).wf = true ∧ (Line.rdm (.pv 128 0)).wf = false ∧ (Line.rdm (.pv 0 64)).wf = false := by decide
theorem test_wf_csum : (Line.csum [1, 256]).wf = false ∧ (Line.csum [0, 255]).wf = true := by decide
theorem test_wf_setbase : (Line.setbase 65536).wf = false := by decide
theorem test_wf_setdim : (Line.setdim 65536 0).wf = false ∧ (Line.setdim 0 65536).wf = false := by decide
theorem test_wf_fill : (Line.fill .pix 16777216).wf = false ∧ (Line.fill .pb 256).wf = false := by decide
theorem test_wf_program : wfProgram [.command .nop, .csadd 256] = false := by decide

/-! The profile (R7), row by row of the rule's table -/

theorem test_profile : Config.device = ⟨128, 64, 8, 8, 1024, 16, 64, 16, 0#8, 0x7140#16, 43, 8, 3, 0#8, 255#8,
    .notPixel (pixelOf 255#8 255#8 255#8)⟩ := by decide

/-- R115: "`(255,255,254)`, `(254,255,255)`, `(0,0,0)` and `(255,0,0)` are all on; only `(255,255,255)` is off". -/
theorem test_on : on (pixelOf 255#8 255#8 254#8) = true ∧ on (pixelOf 254#8 255#8 255#8) = true ∧
    on (pixelOf 0#8 0#8 0#8) = true ∧ on (pixelOf 255#8 0#8 0#8) = true ∧ on (pixelOf 255#8 255#8 255#8) = false := by
  decide

/-! Small states -/

/-- The core after reset with known memories: `PIX` all white but for `pix`, `PB` all zero but for `pb`. -/
def small (pix : List (Nat × Pixel)) (pb : List (Nat × Byte)) (events : List Event) : State :=
  { State.reset with
    pix := ⟨.filled 0xFFFFFF#24, pix⟩
    pb := ⟨.filled 0x00#8, pb⟩
    out := ⟨.filled 0x00#8, []⟩
    pv := ⟨.filled 0xFF#8, []⟩
    events := events }

/-- Something of the next state, if there is one. -/
def look {α : Type} (o : Host.Outcome State Fault Refusal) (f : State → α) : Option α :=
  match o with
  | .next t => some (f t)
  | .fault _ => none
  | .refused _ => none

/-- The codes of characters. -/
def codes (cs : List Char) : List Byte := cs.map fun c => BitVec.ofNat 8 c.toNat

/-! Commands (95_test_vectors.md, part 2) -/

/-- "a successful command after an InvalidDimensions 0x0102". -/
theorem test_nop_status : look (exec .nop { small [] [] [] with status := ⟨false, true, 1#4, true, false, false⟩ })
    (fun t => t.status.word) = some 0x0102#16 := by decide

theorem test_first_command_status : look (exec .nop (small [] [] [])) (fun t => t.status.word) = some 0x0002#16 := by
  decide

/-- V-PACK-4: `(5, 9)` black gives `PB[133]` = 0x02. -/
theorem test_pack_block_one : look (exec .pack (small [(9 * 128 + 5, 0x000000#24)] [] []))
    (fun t => (t.packed 133, t.status.word)) = some (0x02#8, 0x0002#16) := by decide +kernel

/-- V-PACK-16: `DIMW` = 127. -/
theorem test_pack_dimw : look (exec .pack { small [(0, 0x000000#24)] [] [] with dimw := 127#16 })
    (fun t => (t.packed 0, t.status.word)) = some (0x00#8, 0x0112#16) := by decide

/-- V-ENC-18: line 8 of the buffer with `PB[133]` = 0x02. -/
theorem test_encode_line : look (exec .encode (small [] [(133, 0x02#8)] []))
    (fun t => (List.range 43).map (t.outChar 8)) = some (codes
      [':', '1', '0', '7', '1', 'C', '0', '0', '0', '0', '0', '0', '0', '0', '0', '0', '0', '0', '0', '0', '2', '0', '0',
        '0', '0', '0', '0', '0', '0', '0', '0', '0', '0', '0', '0', '0', '0', '0', '0', '0', '0', 'B', 'D']) := by
  decide +kernel

/-- V-ENC-16: base 0xFC10. -/
theorem test_encode_overflow : look (exec .encode { small [] [] [] with base := 0xFC10#16 })
    (fun t => (t.outChar 0 0, t.status.word)) = some (0x00#8, 0x0222#16) := by decide

/-- V-UNP-3: `PB[133]` = 0x02 gives `PV(5, 9)` = 0x00. -/
theorem test_unpack_pixel : look (exec .unpack (small [] [(133, 0x02#8)] []))
    (fun t => (t.preview 5 9, t.preview 5 10)) = some (0x00#8, 0xFF#8) := by decide +kernel

/-- V-UNP-8: nothing is checked. -/
theorem test_unpack_checks_nothing : look (exec .unpack { small [] [] [] with dimw := 0#16, base := 0xFFFF#16 })
    (fun t => t.status.word) = some 0x0002#16 := by decide

theorem test_csclr : look (exec .csclr { small [] [] [] with csacc := 0xC1#8 })
    (fun t => (t.csacc, t.readRegister 5#3)) = some (0x00#8, 0x0000#16) := by decide

/-- "`CSACC` = 0xFF then `CSADD #0x01`: `CSACC` = 0x00". -/
theorem test_csadd_wraps : look (exec (.csadd 0x01#8) { small [] [] [] with csacc := 0xFF#8 })
    (fun t => (t.csacc, t.readRegister 5#3)) = some (0x00#8, 0x0000#16) := by decide

/-- Program P3: after 0x10, 0x71, 0x40, 0x00 `CSUM` reads 0x003F. -/
theorem test_csadd_header : look (exec (.csadd 0x00#8) { small [] [] [] with csacc := 0xC1#8 })
    (fun t => t.readRegister 5#3) = some 0x003F#16 := by decide

/-- `CONVERT` of one black pixel at `(127, 63)` (V-PACK-5). -/
theorem test_convert : look (exec .convert (small [(8191, 0x000000#24)] [] []))
    (fun t => (t.packed 1023, t.preview 127 63, t.status.word)) = some (0x80#8, 0x00#8, 0x0002#16) := by decide +kernel

/-- "`CONVERT` with `DIMW` = 127 and `BASE` = 0xFFFF from reset: `STATUS` = 0x0112". -/
theorem test_convert_dimension_first : look (exec .convert { State.reset with dimw := 127#16, base := 0xFFFF#16 })
    (fun t => t.status.word) = some 0x0112#16 := by decide

/-! Checksums (V-CK) and records (V-ENC) -/

theorem test_ck : ck [] = 0x00#8 ∧ ck [0x80#8, 0x80#8] = 0x00#8 ∧ ck [0x10#8, 0x71#8, 0x40#8, 0x00#8] = 0x3F#8 ∧
    ck [200#8, 100#8] = 0xD4#8 := by decide

/-- V-ENC-4 and V-ENC-15: the address carries into its high byte, and the last line of the largest base. -/
theorem test_records : recordBytes 0x7140#16 (fun _ => 0x00#8) 12 = [0x10#8, 0x72#8, 0x00#8, 0x00#8]
      ++ List.replicate 16 0x00#8 ++ [0x7E#8] ∧
    recordBytes 0xFC0F#16 (fun _ => 0x00#8) 63 = [0x10#8, 0xFF#8, 0xFF#8, 0x00#8]
      ++ List.replicate 16 0x00#8 ++ [0xF2#8] := by decide

/-! The host's moves -/

/-- Program P4: the word 0x0101 gives `STATUS` 0x0742 after the two earlier failures. -/
theorem test_illegal_word : look (step { small [] [] [.move (.writeReg 0#3 0x0101#16)] with
      status := ⟨false, true, 0#4, true, true, false⟩ }) (fun t => t.status.word) = some 0x0742#16 := by decide

theorem test_withFetchWord : look (step (State.reset.withFetchWord 16 0x0510)) (fun t => (t.csacc, t.status.word))
    = some (0x10#8, 0x0002#16) := by decide

/-- The `OUT` port reads 0x00 beyond a line (R51). -/
theorem test_out_port : look (step (small [] [] [.move (.readOut 63#6 43#6)])) (fun t => t.answers) = some [.byte 0x00#8] := by
  decide

/-! Witnesses: for each statement of Obligations.lean with hypotheses, states and operands that meet them -/

/-- One word for each clause, the operand and the opcode at the ends of their ranges. -/
theorem witness_DecodeFollowsTheOpcodeMap :
    (0x05FF#16 : Word).toNat / 256 = 0x05 ∧ ((0x0401#16 : Word).toNat / 256 ≠ 0x05 ∧ (0x0401#16 : Word).toNat % 256 ≠ 0x00) ∧
    ((0x0000#16 : Word).toNat % 256 = 0x00 ∧ (0x0000#16 : Word).toNat / 256 = 0x00) ∧
    ((0x0100#16 : Word).toNat % 256 = 0x00 ∧ (0x0100#16 : Word).toNat / 256 = 0x01) ∧
    ((0x0200#16 : Word).toNat % 256 = 0x00 ∧ (0x0200#16 : Word).toNat / 256 = 0x02) ∧
    ((0x0300#16 : Word).toNat % 256 = 0x00 ∧ (0x0300#16 : Word).toNat / 256 = 0x03) ∧
    ((0x0400#16 : Word).toNat % 256 = 0x00 ∧ (0x0400#16 : Word).toNat / 256 = 0x04) ∧
    ((0x0600#16 : Word).toNat % 256 = 0x00 ∧ (0x0600#16 : Word).toNat / 256 = 0x06) ∧
    ((0x0700#16 : Word).toNat % 256 = 0x00 ∧ 0x06 < (0x0700#16 : Word).toNat / 256) := by decide

theorem witness_DecodeEncodeRoundTrip :
    (Instr.csadd 0xFF#8).wf = true ∧ decode 0x05FF#16 = .command (.csadd 0xFF#8) := by decide

theorem witness_DecoderAgreesWithTheOpcodeTable :
    decode 0x0500#16 = .command (.csadd 0x00#8) ∧ (∃ e, decode 0xFFFF#16 = .illegal e) ∧
    ∀ row ∈ opcodeTable, row.matchesWord 0xFFFF#16 = false := ⟨by decide, ⟨_, rfl⟩, by decide⟩

theorem witness_StepRunsTheDecodedCommand :
    let s := small [] [] [.move (.writeReg 0#3 0x0571#16)]
    s.status.busy = false ∧ s.events = .move (.writeReg 0#3 0x0571#16) :: [] ∧
      decode 0x0571#16 = .command (.csadd 0x71#8) := by decide

theorem witness_IllegalWordRaisesIllegalCommand :
    let s := small [] [] [.move (.writeReg 0#3 0x0700#16)]
    s.status.busy = false ∧ s.events = .move (.writeReg 0#3 0x0700#16) :: [] ∧
      decode 0x0700#16 = .illegal (.unassignedOpcode 0x07#8) ∧ s.status.word = 0x0000#16 ∧
      step s = .next (State.raise { s with events := [] } .illegalCommand) := ⟨rfl, rfl, by decide, by decide, rfl⟩

theorem witness_IdleCoreWaits : State.reset.events = [] ∧ State.reset.seq.phase = .idle := ⟨rfl, rfl⟩

/-- A running command. -/
def running (p : Phase) (events : List Event) : State :=
  { small [] [] events with status := ⟨true, false, 0#4, false, false, false⟩, seq := Seq.enter p }

/-- The refused side is met: a host access to a running core (R197). -/
theorem witness_OnlyAccessWhileBusyIsRefused :
    let s := running (.scan false) [.move (.readReg 2#3)]
    s.status.busy = true ∧ (∃ e rest, s.events = e :: rest ∧ e ≠ .tick ∧ e ≠ .move .reset ∧ e ≠ .move (.readReg 1#3)) ∧
      step s = .refused .accessWhileBusy := ⟨rfl, ⟨_, _, rfl, by decide, by decide, by decide⟩, rfl⟩

theorem witness_NopCompletesAndDoesNothingElse :
    let s := { small [] [] [] with status := ⟨false, true, 1#4, true, false, false⟩ }
    s.status.word = 0x0112#16 ∧ exec .nop s = .next s.complete := ⟨by decide, rfl⟩

theorem witness_PackPacksTheGridOrRejectsIt :
    ((small [] [] []).dimw = 128#16 ∧ (small [] [] []).dimh = 64#16) ∧
    (let s := { small [] [] [] with dimh := 65#16 }; ¬ (s.dimw = 128#16 ∧ s.dimh = 64#16)) := by decide

theorem witness_EncodeWritesTheRecordsOrRejectsTheBase :
    (let s := { small [] [] [] with base := 0xFC0F#16 }; s.base.toNat + 1008 ≤ 0xFFFF) ∧
    (let s := { small [] [] [] with base := 0xFC10#16 }; 0xFFFF < s.base.toNat + 1008) := by decide

theorem witness_ConvertRunsTheWholeFlowOrWritesNothing :
    (let s := { small [] [] [] with base := 0xFC0F#16 };
      s.dimw = 128#16 ∧ s.dimh = 64#16 ∧ s.base.toNat + 1008 ≤ 0xFFFF) ∧
    (let s := { small [] [] [] with dimw := 127#16 }; ¬ (s.dimw = 128#16 ∧ s.dimh = 64#16)) ∧
    (let s := { small [] [] [] with base := 0xFC10#16 };
      s.dimw = 128#16 ∧ s.dimh = 64#16 ∧ 0xFFFF < s.base.toNat + 1008) := by decide

/-- A command that fails, with each of the two codes. -/
theorem witness_FailedCommandChangesOnlyStatus :
    (let s := { small [] [] [] with dimw := 127#16 };
      exec .pack s = .next (s.raise .invalidDimensions) ∧ (s.raise .invalidDimensions).status.err ≠ 0#4) ∧
    (let s := { small [] [] [] with base := 0xFC10#16 };
      exec .encode s = .next (s.raise .addressOverflow) ∧ (s.raise .addressOverflow).status.err ≠ 0#4) :=
  ⟨⟨rfl, by decide⟩, rfl, by decide⟩

theorem witness_FailureRecursUntilTheInputIsFixed :
    let s := { small [] [] [] with dimw := 64#16, dimh := 128#16 }
    exec .convert s = .next (s.raise .invalidDimensions) ∧ (s.raise .invalidDimensions).status.err ≠ 0#4 :=
  ⟨rfl, by decide⟩

/-- A command outside each of the excluded pairs, and failures that set the sticky bits. -/
theorem witness_CommandsWriteOnlyTheirOutputs :
    (exec .nop (small [] [] []) = .next (small [] [] []).complete ∧
      (Instr.nop ≠ .csclr ∧ ∀ v, Instr.nop ≠ .csadd v) ∧ (Instr.nop ≠ .pack ∧ Instr.nop ≠ .convert) ∧
      (Instr.nop ≠ .encode ∧ Instr.nop ≠ .convert) ∧ (Instr.nop ≠ .unpack ∧ Instr.nop ≠ .convert)) ∧
    (let s := { small [] [] [] with dimw := 127#16 };
      exec .pack s = .next (s.raise .invalidDimensions) ∧ (s.raise .invalidDimensions).status.edim = true) ∧
    (let s := { small [] [] [] with base := 0xFC10#16 };
      exec .encode s = .next (s.raise .addressOverflow) ∧ (s.raise .addressOverflow).status.eaddr = true) :=
  ⟨⟨rfl, ⟨by decide, fun _ => by simp⟩, by decide, by decide, by decide⟩, ⟨rfl, rfl⟩, rfl, rfl⟩

theorem witness_CsaddAppendsOneByte : (small [] [] []).csacc = 0x00#8 := by decide

theorem witness_ChecksumLaws :
    (([0x80#8, 0x80#8] : List Byte).map BitVec.toNat).sum % 256 = 0 ∧
    (([0x80#8] : List Byte).map BitVec.toNat).sum % 256 = (([0xFF#8, 0x81#8] : List Byte).map BitVec.toNat).sum % 256 ∧
    ([0x01#8, 0xFF#8] : List Byte).Perm [0xFF#8, 0x01#8] := by decide

/-- Two pushes with a failing command, an illegal word and a register write among them. -/
theorem witness_CsumReadsTheChecksumOfThePushedBytes :
    let moves := [HostMove.writeReg 0#3 0x0510#16, .writeReg 3#3 127#16, .writeReg 0#3 0x0100#16,
      .writeReg 0#3 0xFFFF#16, .writeReg 5#3 0x0571#16, .writeReg 0#3 0x05FF#16]
    (∀ m ∈ moves, m ≠ .reset ∧ ∀ w, m = .writeReg 0#3 w → decode w ≠ .command .csclr) ∧
    (let s := small [] [] (.move (.writeReg 0#3 0x0400#16) :: (moves.map .move ++ [.move (.readReg 5#3)]));
      s.status.busy = false ∧
      s.events = .move (.writeReg 0#3 0x0400#16) :: (moves.map .move ++ [.move (.readReg 5#3)])) ∧
    pushedBytes moves = [0x10#8, 0xFF#8] := by
  refine ⟨fun m hm => ?_, ⟨rfl, rfl⟩, by decide⟩
  simp only [List.mem_cons, List.not_mem_nil, or_false] at hm
  rcases hm with rfl | rfl | rfl | rfl | rfl | rfl <;>
    exact ⟨by decide, fun w hw => by injection hw with _ hw; subst hw; decide⟩

/-- Two grids of one pattern: black and grey at `(127, 63)`, white elsewhere. -/
theorem witness_PackDependsOnlyOnThePattern :
    let s := small [(8191, 0x000000#24)] [] []
    let s' := small [(8191, 0x808080#24)] [(0, 0xAA#8)] []
    (s.dimw = 128#16 ∧ s.dimh = 64#16 ∧ s'.dimw = 128#16 ∧ s'.dimh = 64#16) ∧
    ∀ c r, c < 128 → r < 64 → (s.pixel c r = 0xFFFFFF#24 ↔ s'.pixel c r = 0xFFFFFF#24) := by
  refine ⟨by decide, fun c r hc hr => ?_⟩
  by_cases h : gridIndex c r = 8191
  · simp [small, State.pixel, Memory.read, cellAt, h]
  · simp [small, State.pixel, Memory.read, cellAt, Ne.symm h, Memory.unlisted]

theorem witness_PackOfUniformAndSinglePixelGrids :
    ((small [] [] []).dimw = 128#16 ∧ (small [] [] []).dimh = 64#16) ∧
    (∀ c r, c < 128 → r < 64 → (small [] [] []).pixel c r = 0xFFFFFF#24) ∧
    (∀ c r, c < 128 → r < 64 → ({ small [] [] [] with pix := ⟨.filled 0x808080#24, []⟩ } : State).pixel c r ≠ 0xFFFFFF#24) ∧
    (∀ c r, c < 128 → r < 64 → ((small [(8191, 0x000000#24)] [] []).pixel c r ≠ 0xFFFFFF#24 ↔ c = 127 ∧ r = 63)) := by
  refine ⟨by decide, fun _ _ _ _ => rfl, fun _ _ _ _ => ?_, fun c r hc hr => ?_⟩
  · simp [State.pixel, Memory.read, cellAt, Memory.unlisted]
  · by_cases h : gridIndex c r = 8191
    · simp [small, State.pixel, Memory.read, cellAt, h]
      simp only [gridIndex_eq] at h; omega
    · simp [small, State.pixel, Memory.read, cellAt, Ne.symm h, Memory.unlisted]
      simp only [gridIndex_eq] at h; omega

theorem witness_PackThenUnpackKeepsOnAndOff :
    (small [(8191, 0x000000#24)] [] []).dimw = 128#16 ∧ (small [(8191, 0x000000#24)] [] []).dimh = 64#16 := by decide

/-- The buffer of zeros, its all white preview, and the white grid. -/
theorem witness_PreviewPacksBackToTheBuffer :
    let s := small [] [] []
    exec .unpack s = .next s.unpackAll.complete ∧ s.dimw = 128#16 ∧ s.dimh = 64#16 ∧
    ∀ c r, c < 128 → r < 64 → s.pixel c r = pixelOf (s.unpackAll.complete.preview c r)
      (s.unpackAll.complete.preview c r) (s.unpackAll.complete.preview c r) := by
  refine ⟨rfl, by decide, by decide, fun c r hc hr => ?_⟩
  rw [State.preview_complete, State.preview_unpackAll _ hc hr]
  have : previewPixel (small [] [] []).packed c r = 0xFF#8 := by
    simp [previewPixel_eq, small, State.packed, Memory.read, cellAt, Memory.unlisted, previewOf_eq]
  rw [this]
  rfl

theorem witness_PreviewIsBlackOrWhite :
    let s := small [] [] []
    (exec .unpack s = .next s.unpackAll.complete ∧ s.unpackAll.complete.status.err = 0#4) ∧
    (exec .convert s = .next s.packAll.encodeAll.unpackAll.complete ∧
      s.packAll.encodeAll.unpackAll.complete.status.err = 0#4) :=
  ⟨⟨rfl, rfl⟩, by rw [exec_convert]; rfl, rfl⟩

/-- The largest base, so that record 63 stands at the last address. -/
theorem witness_EncodedLinesReadBack :
    let s := { small [] [(1023, 0xFF#8)] [] with base := 0xFC0F#16 }
    exec .encode s = .next s.encodeAll.complete ∧ s.encodeAll.complete.status.err = 0#4 :=
  ⟨by rw [exec_encode]; rfl, rfl⟩

/-- Two buffers that differ in chunk 1 only. -/
theorem witness_LineDependsOnlyOnItsChunk :
    let s := small [] [] []
    let s' := small [] [(16, 0xFF#8)] []
    exec .encode s = .next s.encodeAll.complete ∧ exec .encode s' = .next s'.encodeAll.complete ∧
    s.encodeAll.complete.status.err = 0#4 ∧ s.base = s'.base ∧
    ∀ m, m < 16 → s.packed (16 * 0 + m) = s'.packed (16 * 0 + m) :=
  ⟨by rw [exec_encode]; rfl, by rw [exec_encode]; rfl, rfl, rfl, by decide⟩

theorem witness_RegisterReadsReturnAndChangeNothing :
    (small [] [] [.move (.readReg 7#3)]).status.busy = false ∧
    (small [] [] [.move (.readReg 7#3)]).events = .move (.readReg 7#3) :: [] := by decide

theorem witness_RegisterWritesTakeOrAreIgnored :
    (small [] [] [.move (.writeReg 7#3 0xFFFF#16)]).status.busy = false ∧
    (small [] [] [.move (.writeReg 7#3 0xFFFF#16)]).events = .move (.writeReg 7#3 0xFFFF#16) :: [] ∧ 7#3 ≠ 0#3 := by
  decide

theorem witness_ReservedRegistersReadZeroAndIgnoreWrites :
    (6#3 = 6#3 ∨ 6#3 = 7#3) ∧ (small [] [] [.move (.readReg 6#3)]).status.busy = false ∧
    (small [] [] [.move (.readReg 6#3)]).events = .move (.readReg 6#3) :: [] ∧
    (small [] [] [.move (.writeReg 6#3 0xFFFF#16)]).events = .move (.writeReg 6#3 0xFFFF#16) :: [] := by decide

theorem witness_ElementWriteIsReadBack :
    (let s := small [] [] [.move (.writePix 127#7 63#6 0x000001#24), .move (.readPix 127#7 63#6)];
      s.status.busy = false ∧ s.events = .move (.writePix 127#7 63#6 0x000001#24) :: .move (.readPix 127#7 63#6) :: []) ∧
    (let s := small [] [] [.move (.writePb 1023#10 0x80#8), .move (.readPb 0#10)];
      s.status.busy = false ∧ s.events = .move (.writePb 1023#10 0x80#8) :: .move (.readPb 0#10) :: []) ∧
    (let s := small [] [] [.move (.readPix 127#7 63#6)];
      s.status.busy = false ∧ s.events = .move (.readPix 127#7 63#6) :: []) ∧
    (let s := small [] [] [.move (.readPb 1023#10)];
      s.status.busy = false ∧ s.events = .move (.readPb 1023#10) :: []) := by decide

theorem witness_ReadOnlySpacesIgnoreWritesAndRead :
    (small [] [] []).status.busy = false ∧
    (small [] [] [.move (.writeOut 63#6 42#6 0xFF#8)]).events = .move (.writeOut 63#6 42#6 0xFF#8) :: [] ∧
    (small [] [] [.move (.writePv 127#7 63#6 0x00#8)]).events = .move (.writePv 127#7 63#6 0x00#8) :: [] ∧
    (small [] [] [.move (.readPv 127#7 63#6)]).events = .move (.readPv 127#7 63#6) :: [] ∧
    (small [] [] [.move (.readOut 63#6 42#6)]).events = .move (.readOut 63#6 42#6) :: [] ∧
    (small [] [] [.move (.readOut 63#6 43#6)]).events = .move (.readOut 63#6 43#6) :: [] := by decide

theorem witness_ResetWhileIdleKeepsTheMemories :
    (small [] [] [.move .reset]).seq.phase = .idle ∧ (small [] [] [.move .reset]).events = .move .reset :: [] := by decide

/-- A scan, and a command without a loop. -/
theorem witness_ResetWhileRunningAbandonsTheCommand :
    ((running (.scan false) [.move .reset]).seq.phase ≠ .idle ∧
      (running (.scan false) [.move .reset]).events = .move .reset :: []) ∧
    ((running (.csadd 0xFF#8) [.move .reset]).seq.phase ≠ .idle ∧
      (running (.csadd 0xFF#8) [.move .reset]).events = .move .reset :: []) := by decide

/-- Acceptance of an illegal word, a read in the middle of a scan, and a step of that scan with no event and by a tick. -/
theorem witness_StatusReadWhileBusyShowsBusy :
    ((small [] [] [.start 0xFFFF#16]).status.busy = false ∧
      (small [] [] [.start 0xFFFF#16]).events = .start 0xFFFF#16 :: []) ∧
    ((running (.scan false) [.move (.readReg 1#3)]).status.busy = true ∧
      (running (.scan false) [.move (.readReg 1#3)]).events = .move (.readReg 1#3) :: []) ∧
    (look (step (running (.scan false) [])) (fun t => t.status.busy) = some true ∧
      (running (.scan false) []).status.busy = true ∧ (running (.scan false) []).events = []) ∧
    (look (step (running (.scan false) [.tick])) (fun t => t.status.busy) = some true ∧
      (running (.scan false) [.tick]).status.busy = true ∧ (running (.scan false) [.tick]).events = .tick :: []) := by
  decide

/-- A step other than a reset, with `DONE` and every sticky bit set before it. -/
theorem witness_OnlyResetClearsDoneAndTheStickyBits :
    let s := { small [] [] [.move (.writeReg 0#3 0x0000#16)] with status := ⟨false, true, 4#4, true, true, true⟩ }
    step s = .next (State.complete { s with events := [] }) ∧ (∀ rest, s.events ≠ .move .reset :: rest) ∧
    s.status.done = true ∧ s.status.edim = true ∧ s.status.eaddr = true ∧ s.status.eill = true :=
  ⟨rfl, fun _ => by simp [small], rfl, rfl, rfl, rfl⟩

/-- A command that fails, given to a core on which none has failed. -/
theorem witness_StickyBitsRecordEveryFailure :
    let s := small [] [] [.move (.writeReg 0#3 0x0101#16)]
    s.status.busy = false ∧ s.events = .move (.writeReg 0#3 0x0101#16) :: [] ∧
    step s = .next (State.raise { s with events := [] } .illegalCommand) ∧ s.noCommandFailed :=
  ⟨rfl, rfl, rfl, rfl, rfl, rfl⟩

/-- A small idle state meets the invariant, whatever is still to happen. -/
theorem small_inv (events : List Event) : (small [] [] events).Inv where
  memories := by simp [State.memoriesWf, small, Memory.wf]
  err := .inl rfl
  sticky := ⟨fun h => absurd (show 0#4 = 1#4 from h) (by decide), fun h => absurd (show 0#4 = 2#4 from h) (by decide),
    fun h => absurd (show 0#4 = 4#4 from h) (by decide)⟩
  done _ := ⟨rfl, rfl, rfl, rfl⟩
  busy := ⟨fun h => (by cases h), fun h => absurd rfl h⟩
  seq := rfl
  fresh := ⟨trivial, trivial, trivial, trivial⟩

theorem witness_StepKeepsTheMachineInvariant :
    let s := small [] [] [.move (.writeReg 0#3 0x0000#16)]
    s.Inv ∧ step s = .next (State.complete { s with events := [] }) := ⟨small_inv _, rfl⟩

theorem witness_LooplessCommandsReachTheirWholeEffect :
    ((small [] [] [.start 0x0000#16]).status.busy = false ∧ (small [] [] [.start 0x0000#16]).events = [.start 0x0000#16]) ∧
    decode 0x0000#16 = .command .nop ∧ decode 0x0400#16 = .command .csclr ∧
    decode 0x05FF#16 = .command (.csadd 0xFF#8) ∧ decode 0x0700#16 = .illegal (.unassignedOpcode 0x07#8) := by decide

theorem witness_PackStepsReachTheWholeEffect :
    let s := small [] [] [.start 0x0100#16]
    s.Inv ∧ s.status.busy = false ∧ s.events = [.start 0x0100#16] := ⟨small_inv _, rfl, rfl⟩

theorem witness_EncodeStepsReachTheWholeEffect :
    let s := small [] [] [.start 0x0200#16]
    s.Inv ∧ s.status.busy = false ∧ s.events = [.start 0x0200#16] := ⟨small_inv _, rfl, rfl⟩

theorem witness_UnpackStepsReachTheWholeEffect :
    let s := small [] [] [.start 0x0300#16]
    s.Inv ∧ s.status.busy = false ∧ s.events = [.start 0x0300#16] := ⟨small_inv _, rfl, rfl⟩

theorem witness_ConvertStepsReachTheWholeEffect :
    let s := small [] [] [.start 0x0600#16]
    s.Inv ∧ s.status.busy = false ∧ s.events = [.start 0x0600#16] := ⟨small_inv _, rfl, rfl⟩

theorem witness_AssemblerLinesExpandToHostMoves :
    255 < 256 ∧ 65535 < 65536 ∧ (Line.wrm (.pix 127 63) 16777215).wf = true ∧ (Line.wrm (.pb 1023) 255).wf = true ∧
    (Line.rdm (.pix 127 63)).wf = true ∧ (Line.rdm (.pb 1023)).wf = true ∧ (Line.rdm (.out 63 42)).wf = true ∧
    (Line.rdm (.pv 127 63)).wf = true := by decide

end Sys2Proof.Tests
end

section
/-! SUPPORT. The invariant of the machine (Safety.lean) at each way a step can end: the soundness of the memories as one
predicate that every write keeps, the invariant of the sequencer phase by phase, and the invariant after each elementary
step, each command and each move of the host. -/

namespace Sys2Proof.Machine

/-! Sound memories -/

/-- The memory is canonical within its `n` elements, and its unspecified contents have a number below `k` (log 1). -/
structure Memory.Sound {w : Nat} (m : Memory w) (n k : Nat) : Prop where
  wf   : m.wf n
  used : m.background.usedBelow k

theorem Memory.Sound.write {w n k a : Nat} {m : Memory w} (h : m.Sound n k) (ha : a < n) (v : BitVec w) :
    (m.write a v).Sound n k :=
  ⟨Memory.write_wf v h.wf ha, Background.usedBelow_write h.used⟩

theorem Memory.Sound.writeAll {w n k : Nat} {m : Memory w} (h : m.Sound n k) (f : Nat → BitVec w) :
    (m.writeAll n f).Sound n k :=
  ⟨Memory.writeAll_wf n m f, h.used⟩

theorem Memory.Sound.afterReset {w n k : Nat} {m : Memory w} (h : m.Sound n k) (sp : MemSpace) (p : Phase) :
    (m.afterReset sp p k).Sound n (k + 1) :=
  ⟨Memory.afterReset_wf h.wf sp p k, Background.usedBelow_afterReset h.used sp p⟩

theorem Memory.fresh_sound {w n k j : Nat} (sp : MemSpace) (h : j < k) : (Memory.fresh w sp j).Sound n k :=
  ⟨Memory.fresh_wf n sp j, h⟩

/-- What the invariant says of the four memories. -/
structure State.MemoriesSound (s : State) : Prop where
  pix : s.pix.Sound Config.gridLen s.fresh
  pb  : s.pb.Sound Config.packedLen s.fresh
  out : s.out.Sound Config.outLen s.fresh
  pv  : s.pv.Sound Config.gridLen s.fresh

namespace State.MemoriesSound

variable {s : State}

theorem memoriesWf (h : s.MemoriesSound) : s.memoriesWf := ⟨h.pix.wf, h.pb.wf, h.out.wf, h.pv.wf⟩

theorem usedBelow (h : s.MemoriesSound) : s.pix.background.usedBelow s.fresh ∧ s.pb.background.usedBelow s.fresh ∧
    s.out.background.usedBelow s.fresh ∧ s.pv.background.usedBelow s.fresh :=
  ⟨h.pix.used, h.pb.used, h.out.used, h.pv.used⟩

theorem withSeq (h : s.MemoriesSound) (q : Seq) : State.MemoriesSound { s with seq := q } := ⟨h.pix, h.pb, h.out, h.pv⟩

theorem writePix (h : s.MemoriesSound) {a : Nat} (ha : a < 8192) (v : Pixel) :
    State.MemoriesSound { s with pix := s.pix.write a v } := ⟨h.pix.write ha v, h.pb, h.out, h.pv⟩

theorem writePb (h : s.MemoriesSound) {a : Nat} (ha : a < 1024) (v : Byte) :
    State.MemoriesSound { s with pb := s.pb.write a v } := ⟨h.pix, h.pb.write ha v, h.out, h.pv⟩

theorem writeOut (h : s.MemoriesSound) {a : Nat} (ha : a < 2752) (v : Byte) :
    State.MemoriesSound { s with out := s.out.write a v } := ⟨h.pix, h.pb, h.out.write ha v, h.pv⟩

theorem writePv (h : s.MemoriesSound) {a : Nat} (ha : a < 8192) (v : Byte) :
    State.MemoriesSound { s with pv := s.pv.write a v } := ⟨h.pix, h.pb, h.out, h.pv.write ha v⟩

theorem withCsacc (h : s.MemoriesSound) (acc : Byte) : State.MemoriesSound { s with csacc := acc } :=
  ⟨h.pix, h.pb, h.out, h.pv⟩

theorem packAll (h : s.MemoriesSound) : s.packAll.MemoriesSound := ⟨h.pix, h.pb.writeAll _, h.out, h.pv⟩

theorem encodeAll (h : s.MemoriesSound) : s.encodeAll.MemoriesSound := ⟨h.pix, h.pb, h.out.writeAll _, h.pv⟩

theorem unpackAll (h : s.MemoriesSound) : s.unpackAll.MemoriesSound := ⟨h.pix, h.pb, h.out, h.pv.writeAll _⟩

theorem hostReset (h : s.MemoriesSound) : s.hostReset.MemoriesSound :=
  ⟨h.pix.afterReset _ _, h.pb.afterReset _ _, h.out.afterReset _ _, h.pv.afterReset _ _⟩

theorem scanPlace (h : s.MemoriesSound) : s.scanPlace.MemoriesSound := by
  obtain ⟨-, -, hplace⟩ := s.seq.place_bounds
  unfold State.scanPlace
  split
  · exact h.writePb hplace _
  · exact h

/-- The two digits of byte `SEQ.K` stand inside line `SEQ.I` while `SEQ.K` is at most 20 (R92). -/
theorem emitDigits (h : s.MemoriesSound) (hk : s.seq.k.toNat ≤ 20) : s.emitDigits.MemoriesSound := by
  have hi := s.seq.i.isLt
  have hhigh : outIndex s.seq.i.toNat (1 + 2 * s.seq.k.toNat) < 2752 := outIndex_lt hi (by omega)
  have hlow : outIndex s.seq.i.toNat (2 + 2 * s.seq.k.toNat) < 2752 := outIndex_lt hi (by omega)
  exact (h.writeOut hhigh _).writeOut hlow _

theorem complete_inv (h : s.MemoriesSound) : s.complete.Inv := State.complete_inv h.memoriesWf h.usedBelow

theorem raise_inv (h : s.MemoriesSound) (e : ErrorKind) : (s.raise e).Inv :=
  State.raise_inv h.memoriesWf h.usedBelow e

/-- Sound memories, `STATUS` as after reset and the sequencer at rest make the invariant (R38). -/
theorem inv_of_reset (h : s.MemoriesSound) (hst : s.status = Status.reset) (hq : s.seq = Seq.idle) : s.Inv where
  memories := h.memoriesWf
  err := .inl (by rw [hst]; rfl)
  sticky := by rw [hst]; decide
  done _ := by rw [State.noCommandFailed, hst]; decide
  busy := by rw [hst, hq]; decide
  seq := by rw [State.seqInv, hq]; rfl
  fresh := h.usedBelow

end State.MemoriesSound

/-! The sequencer at each phase (R36, R132, R155) -/

section
variable {s : State} {conv : Bool}

theorem State.seqInv_idle (hp : s.seq.phase = .idle) : s.seqInv ↔ s.seq = Seq.idle := by
  rw [State.seqInv, hp]

theorem State.seqInv_dims (hp : s.seq.phase = .dims conv) : s.seqInv := by
  rw [State.seqInv, hp]; trivial

theorem State.seqInv_addr (hp : s.seq.phase = .addr conv) : s.seqInv ↔ (conv = true → s.dimOk = true) := by
  rw [State.seqInv, hp]

theorem State.seqInv_clear (hp : s.seq.phase = .clear conv) :
    s.seqInv ↔ s.dimOk = true ∧ (conv = true → addrOk s.base = true) := by
  rw [State.seqInv, hp]

theorem State.seqInv_scan (hp : s.seq.phase = .scan conv) :
    s.seqInv ↔ s.dimOk = true ∧ (conv = true → addrOk s.base = true) := by
  rw [State.seqInv, hp]

theorem State.seqInv_load (hp : s.seq.phase = .load conv) :
    s.seqInv ↔ addrOk s.base = true ∧ (conv = true → s.dimOk = true) ∧
      s.seq.addr17.toNat = recordAddress s.base s.seq.i.toNat := by
  rw [State.seqInv, hp]

theorem State.seqInv_emit (hp : s.seq.phase = .emit conv) :
    s.seqInv ↔ addrOk s.base = true ∧ (conv = true → s.dimOk = true) ∧
      s.seq.addr17.toNat = recordAddress s.base s.seq.i.toNat ∧ s.seq.k.toNat ≤ 20 := by
  rw [State.seqInv, hp]

theorem State.seqInv_rebuild (hp : s.seq.phase = .rebuild conv) :
    s.seqInv ↔ (conv = true → s.dimOk = true ∧ addrOk s.base = true) := by
  rw [State.seqInv, hp]

/-- Every command starts at a phase without a premise (R149, R156). -/
theorem State.seqInv_accept (w : Word) (s : State) : (s.accept w).seqInv := by
  obtain ⟨hidle, hcases⟩ := firstPhase_cases w
  have hp : (s.accept w).seq.phase = firstPhase w := rfl
  cases hw : firstPhase w <;> rw [hw] at hidle hcases
  case idle => exact absurd rfl hidle
  case addr conv =>
    obtain rfl : conv = false := hcases
    exact (State.seqInv_addr (hp.trans hw)).mpr nofun
  case rebuild conv =>
    obtain rfl : conv = false := hcases
    exact (State.seqInv_rebuild (hp.trans hw)).mpr nofun
  case clear | scan | load | emit => exact hcases.elim
  all_goals rw [State.seqInv, hp, hw]; trivial

end

/-! `ADDR17` (R36, R132) -/

/-- `ADDR17` starts at the address of record 0. -/
theorem base_setWidth_toNat (base : Word) : (base.setWidth 17).toNat = recordAddress base 0 := by
  have := base.isLt
  rw [recordAddress_eq, BitVec.toNat_setWidth]; omega

/-- Adding 16 to `ADDR17` takes it to the next record's address, below the last record. -/
theorem addr17_next {base : Word} {i : BitVec 6} {a : BitVec 17} (ha : a.toNat = recordAddress base i.toNat)
    (hi : i ≠ 63#6) : (a + 16#17).toNat = recordAddress base (i + 1#6).toNat := by
  have hb := base.isLt
  have hlast : i.toNat ≠ 63 := fun h => hi (BitVec.eq_of_toNat_eq h)
  have hlt := i.isLt
  rw [recordAddress_eq] at ha ⊢
  simp only [BitVec.toNat_add, BitVec.toNat_ofNat]
  omega

/-! Ways to keep the invariant -/

namespace State.Inv

variable {s t : State}

theorem sound (h : s.Inv) : s.MemoriesSound := by
  obtain ⟨hpix, hpb, hout, hpv⟩ := h.memories
  obtain ⟨upix, upb, uout, upv⟩ := h.fresh
  exact ⟨⟨hpix, upix⟩, ⟨hpb, upb⟩, ⟨hout, uout⟩, ⟨hpv, upv⟩⟩

theorem phase_idle (h : s.Inv) (hb : s.status.busy = false) : s.seq.phase = .idle := by
  by_contra hp
  exact absurd (h.busy.mpr hp) (by simp [hb])

/-- The events still to come do not matter (log 3). -/
theorem withEvents (h : s.Inv) (rest : List Event) : State.Inv { s with events := rest } :=
  ⟨h.memories, h.err, h.sticky, h.done, h.busy, h.seq, h.fresh⟩

/-- Nor do the values returned to the host (log 4). -/
theorem answer (h : s.Inv) (a : Answer) : (s.answer a).Inv :=
  ⟨h.memories, h.err, h.sticky, h.done, h.busy, h.seq, h.fresh⟩

/-- A change that leaves `STATUS` alone keeps the invariant when it neither starts nor ends a command, the memories stay
sound and the sequencer has what its phase asks. -/
theorem of_status_eq (h : s.Inv) (hst : t.status = s.status) (hp : t.seq.phase ≠ .idle ↔ s.seq.phase ≠ .idle)
    (hm : t.MemoriesSound) (hq : t.seqInv) : t.Inv where
  memories := hm.memoriesWf
  err := hst ▸ h.err
  sticky := hst ▸ h.sticky
  done := by rw [State.noCommandFailed, hst]; exact h.done
  busy := by rw [hst, hp]; exact h.busy
  seq := hq
  fresh := hm.usedBelow

/-- An elementary step from one phase of a command to another. -/
theorem running (h : s.Inv) (hst : t.status = s.status) (hs : s.seq.phase ≠ .idle) (ht : t.seq.phase ≠ .idle)
    (hm : t.MemoriesSound) (hq : t.seqInv) : t.Inv :=
  h.of_status_eq hst (iff_of_true ht hs) hm hq

/-- A move of the host that touches registers or memories of an idle core. -/
theorem idle_update (h : s.Inv) (hb : s.status.busy = false) (hst : t.status = s.status) (hq : t.seq = s.seq)
    (hm : t.MemoriesSound) : t.Inv := by
  have hp := h.phase_idle hb
  refine h.of_status_eq hst (by rw [hq]) hm ((State.seqInv_idle (hq ▸ hp)).mpr ?_)
  exact hq.trans ((State.seqInv_idle hp).mp h.seq)

/-- Acceptance of a command word by an idle core (R149). -/
theorem accept (h : s.Inv) (w : Word) : (s.accept w).Inv where
  memories := h.memories
  err := h.err
  sticky := h.sticky
  done := h.done
  busy := iff_of_true rfl (firstPhase_cases w).1
  seq := State.seqInv_accept w s
  fresh := h.fresh

theorem hostReset (h : s.Inv) : s.hostReset.Inv := h.sound.hostReset.inv_of_reset rfl rfl

/-! The elementary steps -/

theorem tickDims {conv : Bool} (h : s.Inv) (hp : s.seq.phase = .dims conv) : (s.tickDims conv).Inv := by
  have hrun : s.seq.phase ≠ .idle := by simp [hp]
  unfold State.tickDims
  split
  next hd =>
    cases conv with
    | false => exact h.running rfl hrun nofun (h.sound.withSeq _) ((State.seqInv_clear rfl).mpr ⟨hd, nofun⟩)
    | true => exact h.running rfl hrun nofun (h.sound.withSeq _) ((State.seqInv_addr rfl).mpr fun _ => hd)
  next => exact h.sound.raise_inv _

/-- The encoder starts at record 0 with `ADDR17` at `BASE` (R36, R132). -/
theorem startEncode (conv : Bool) (h : s.Inv) (hrun : s.seq.phase ≠ .idle) (ha : addrOk s.base = true)
    (hd : conv = true → s.dimOk = true) : (s.startEncode conv).Inv :=
  h.running rfl hrun nofun (h.sound.withSeq _) ((State.seqInv_load rfl).mpr ⟨ha, hd, base_setWidth_toNat s.base⟩)

theorem tickAddr {conv : Bool} (h : s.Inv) (hp : s.seq.phase = .addr conv) : (s.tickAddr conv).Inv := by
  have hrun : s.seq.phase ≠ .idle := by simp [hp]
  have hd := (State.seqInv_addr hp).mp h.seq
  unfold State.tickAddr
  split
  next ha =>
    cases conv with
    | false => exact h.startEncode false hrun ha nofun
    | true => exact h.running rfl hrun nofun (h.sound.withSeq _) ((State.seqInv_clear rfl).mpr ⟨hd rfl, fun _ => ha⟩)
  next => exact h.sound.raise_inv _

theorem tickClear {conv : Bool} (h : s.Inv) (hp : s.seq.phase = .clear conv) : (s.tickClear conv).Inv := by
  have hrun : s.seq.phase ≠ .idle := by simp [hp]
  have hq := (State.seqInv_clear hp).mp h.seq
  have hm := h.sound.writePb s.seq.j.isLt 0x00#8
  rw [State.tickClear_eq]
  split
  · exact h.running rfl hrun nofun (hm.withSeq _) ((State.seqInv_scan rfl).mpr hq)
  · exact h.running rfl hrun hrun (hm.withSeq _) ((State.seqInv_clear (by exact hp)).mpr hq)

theorem scanPlace (h : s.Inv) : s.scanPlace.Inv := by
  refine h.of_status_eq (by simp) (by simp) h.sound.scanPlace ?_
  have hq := h.seq
  simpa [State.seqInv, State.dimOk_eq] using hq

theorem tickScan {conv : Bool} (h : s.Inv) (hp : s.seq.phase = .scan conv) : (s.tickScan conv).Inv := by
  have h' := h.scanPlace
  have hp' : s.scanPlace.seq.phase = .scan conv := by simp [hp]
  have hrun : s.scanPlace.seq.phase ≠ .idle := by rw [hp']; nofun
  obtain ⟨hd, ha⟩ := (State.seqInv_scan hp').mp h'.seq
  have hnext : s.seq.nextPlace.phase = .scan conv := s.seq.nextPlace_phase.trans hp
  unfold State.tickScan
  dsimp only
  split
  · cases conv with
    | false => exact h'.sound.complete_inv
    | true => exact h'.startEncode true hrun (ha rfl) fun _ => hd
  · exact h'.running rfl hrun (by simp [hnext]) (h'.sound.withSeq _)
      ((State.seqInv_scan hnext).mpr ⟨hd, ha⟩)

theorem tickLoad {conv : Bool} (h : s.Inv) (hp : s.seq.phase = .load conv) : (s.tickLoad conv).Inv := by
  have hrun : s.seq.phase ≠ .idle := by simp [hp]
  obtain ⟨ha, hd, haddr⟩ := (State.seqInv_load hp).mp h.seq
  have hmark : outIndex s.seq.i.toNat 0 < 2752 := outIndex_lt s.seq.i.isLt (by omega)
  exact h.running rfl hrun nofun ((h.sound.writeOut hmark _).withSeq _)
    ((State.seqInv_emit rfl).mpr ⟨ha, hd, haddr, Nat.zero_le 20⟩)

/-- A byte of a record: the next byte of it, the next record, the scan of `PV` that follows in `CONVERT`, or the end of
`ENCODE` (R132, R155). -/
theorem tickEmit {conv : Bool} (h : s.Inv) (hp : s.seq.phase = .emit conv) : (s.tickEmit conv).Inv := by
  have hrun : s.seq.phase ≠ .idle := by simp [hp]
  obtain ⟨ha, hd, haddr, hk⟩ := (State.seqInv_emit hp).mp h.seq
  have hm := h.sound.emitDigits hk
  rw [State.tickEmit_eq]
  split
  next hlt =>
    have hk' : (s.seq.k + 1#5).toNat ≤ 20 := by simp only [BitVec.toNat_add, BitVec.toNat_ofNat]; omega
    exact h.running rfl hrun hrun (hm.withSeq _) ((State.seqInv_emit (by exact hp)).mpr ⟨ha, hd, haddr, hk'⟩)
  next =>
    split
    next =>
      cases conv with
      | false => exact hm.complete_inv
      | true =>
        exact h.running rfl hrun nofun (hm.withSeq _)
          ((State.seqInv_rebuild rfl).mpr fun _ => ⟨hd rfl, ha⟩)
    next hi =>
      exact h.running rfl hrun nofun (hm.withSeq _)
        ((State.seqInv_load rfl).mpr ⟨ha, hd, addr17_next haddr (by simpa using hi)⟩)

theorem tickRebuild {conv : Bool} (h : s.Inv) (hp : s.seq.phase = .rebuild conv) : s.tickRebuild.Inv := by
  have hrun : s.seq.phase ≠ .idle := by simp [hp]
  have hq := (State.seqInv_rebuild hp).mp h.seq
  obtain ⟨hc, hr, -⟩ := s.seq.place_bounds
  have hplace : gridIndex s.seq.c.toNat s.seq.rowPlace < 8192 := gridIndex_lt hc hr
  have hm := h.sound.writePv hplace (previewOf ((s.packed s.seq.packedPlace).getLsbD s.seq.y))
  have hnext : s.seq.nextPlace.phase = .rebuild conv := s.seq.nextPlace_phase.trans hp
  unfold State.tickRebuild
  dsimp only
  split
  · exact hm.complete_inv
  · exact h.running rfl hrun (by simp [hnext]) (hm.withSeq _)
      ((State.seqInv_rebuild hnext).mpr hq)

/-- Every elementary step keeps the invariant, phase by phase. -/
theorem tick (h : s.Inv) (ht : tick s = .next t) : t.Inv := by
  unfold Machine.tick at ht
  cases hp : s.seq.phase <;> rw [hp] at ht <;> obtain rfl := Host.Outcome.next.inj ht
  case idle => exact h
  case nop => exact h.sound.complete_inv
  case csclr => exact (h.sound.withCsacc _).complete_inv
  case csadd v => exact (h.sound.withCsacc _).complete_inv
  case illegal => exact h.sound.raise_inv _
  case dims conv => exact h.tickDims hp
  case addr conv => exact h.tickAddr hp
  case clear conv => exact h.tickClear hp
  case scan conv => exact h.tickScan hp
  case load conv => exact h.tickLoad hp
  case emit conv => exact h.tickEmit hp
  case rebuild conv => exact h.tickRebuild hp

/-! Commands taken whole (R150) -/

/-- A command taken whole leaves the invariant, whatever the state of the sequencer before it. -/
theorem of_exec {i : Instr} (h : s.MemoriesSound) (ht : exec i s = .next t) : t.Inv := by
  cases i with
  | nop => exact Host.Outcome.next.inj ht ▸ h.complete_inv
  | csclr => exact Host.Outcome.next.inj ht ▸ (h.withCsacc _).complete_inv
  | csadd v => exact Host.Outcome.next.inj ht ▸ (h.withCsacc _).complete_inv
  | unpack => exact Host.Outcome.next.inj ht ▸ h.unpackAll.complete_inv
  | pack =>
    rw [exec_pack] at ht
    obtain rfl := Host.Outcome.next.inj ht
    split
    · exact h.packAll.complete_inv
    · exact h.raise_inv _
  | encode =>
    rw [exec_encode] at ht
    obtain rfl := Host.Outcome.next.inj ht
    split
    · exact h.encodeAll.complete_inv
    · exact h.raise_inv _
  | convert =>
    rw [exec_convert] at ht
    obtain rfl := Host.Outcome.next.inj ht
    split
    · split
      · exact h.packAll.encodeAll.unpackAll.complete_inv
      · exact h.raise_inv _
    · exact h.raise_inv _

/-- The write of a word to `CMD`, legal or not (R150, R154). -/
theorem of_issue {w : Word} (h : s.MemoriesSound) (ht : issue w s = .next t) : t.Inv := by
  obtain ⟨i, hi⟩ | ⟨e, he⟩ := decode_illegal_or_command w
  · rw [issue_command hi] at ht
    exact of_exec h ht
  · rw [issue_illegal he] at ht
    exact Host.Outcome.next.inj ht ▸ h.raise_inv _

/-! The moves of the host (R196) -/

/-- The write of a register that is not `CMD` touches none of `STATUS`, the sequencer and the memories (R21). -/
theorem writeRegister (h : s.Inv) (hb : s.status.busy = false) (n : BitVec 3) (v : Word) :
    (s.writeRegister n v).Inv := by
  have hm : ∀ b w d, State.MemoriesSound { s with base := b, dimw := w, dimh := d } := fun _ _ _ =>
    ⟨h.sound.pix, h.sound.pb, h.sound.out, h.sound.pv⟩
  unfold State.writeRegister
  split
  · exact h.idle_update hb rfl rfl (hm _ _ _)
  · exact h.idle_update hb rfl rfl (hm _ _ _)
  · exact h.idle_update hb rfl rfl (hm _ _ _)
  · exact h

theorem hostMove {m : HostMove} (h : s.Inv) (hb : s.status.busy = false) (ht : hostMove m s = .next t) : t.Inv := by
  cases m with
  | writeReg n v =>
    simp only [Machine.hostMove] at ht
    split at ht
    · exact of_issue h.sound ht
    · exact Host.Outcome.next.inj ht ▸ h.writeRegister hb n v
  | writePix c r v =>
    exact Host.Outcome.next.inj ht ▸ h.idle_update hb rfl rfl (h.sound.writePix (gridIndex_lt c.isLt r.isLt) v)
  | writePb j v => exact Host.Outcome.next.inj ht ▸ h.idle_update hb rfl rfl (h.sound.writePb j.isLt v)
  | reset => exact Host.Outcome.next.inj ht ▸ h.hostReset
  | writeOut i k v => exact Host.Outcome.next.inj ht ▸ h
  | writePv c r v => exact Host.Outcome.next.inj ht ▸ h
  | readReg n => exact Host.Outcome.next.inj ht ▸ h.answer _
  | readPix c r => exact Host.Outcome.next.inj ht ▸ h.answer _
  | readPb j => exact Host.Outcome.next.inj ht ▸ h.answer _
  | readOut i k => exact Host.Outcome.next.inj ht ▸ h.answer _
  | readPv c r => exact Host.Outcome.next.inj ht ▸ h.answer _

theorem idleEvent {e : Event} (h : s.Inv) (hb : s.status.busy = false) (ht : idleEvent e s = .next t) : t.Inv := by
  cases e with
  | move m => exact h.hostMove hb ht
  | start w => exact Host.Outcome.next.inj ht ▸ h.accept w
  | tick => exact h.tick ht

theorem busyEvent {e : Event} (h : s.Inv) (ht : busyEvent e s = .next t) : t.Inv := by
  obtain ⟨-, he⟩ | ⟨-, he⟩ | ⟨-, he⟩ | ⟨-, -, -, he⟩ := busyEvent_cases e s <;> rw [he] at ht
  · exact h.tick ht
  · exact Host.Outcome.next.inj ht ▸ h.hostReset
  · exact Host.Outcome.next.inj ht ▸ h.answer _
  · cases ht

theorem step (h : s.Inv) (ht : step s = .next t) : t.Inv := by
  cases he : s.events with
  | nil => exact h.tick (step_nil he ▸ ht)
  | cons e rest =>
    cases hb : s.status.busy with
    | false => exact (h.withEvents rest).idleEvent hb (step_idle hb he ▸ ht)
    | true => exact (h.withEvents rest).busyEvent (step_busy hb he ▸ ht)

end State.Inv
/-- Settles O45: the memories of reset are fresh, `STATUS` and the sequencer are those of R38. -/
theorem resetMeetsTheMachineInvariant : Obligations.ResetMeetsTheMachineInvariant := by
  have hm : State.reset.MemoriesSound := by
    constructor <;> exact Memory.fresh_sound _ Nat.zero_lt_one
  exact hm.inv_of_reset rfl rfl

/-- Settles O46: a step is an elementary step, an event on an idle core or an event on a running core, and each keeps
the invariant. -/
theorem stepKeepsTheMachineInvariant : Obligations.StepKeepsTheMachineInvariant :=
  fun _ _ h ht => h.step ht

end Sys2Proof.Machine
end

section
/-! SUPPORT. The registers, the elements and `STATUS` as the host sees them (10_state.md). -/

namespace Sys2Proof.Machine

/-! Commands (R75 to R80, R149) -/

/-- The word of a command decodes to it (R77, R79). -/
theorem decode_encode (i : Instr) : decode (encode i) = .command i := by
  cases i with
  | csadd imm8 => simp [decode, encode]
  | _ => rfl

/-- A command word fits the 16 bits that `withFetchWord` takes (R80). -/
theorem State.withFetchWord_toNat (s : State) (w : Word) : s.withFetchWord 16 w.toNat = s.withCommandWord w := by
  simp [State.withFetchWord, Nat.mod_eq_of_lt w.isLt]

/-- Settles O6: the write of `CMD` issues the word, and the word decodes to the command. -/
theorem stepRunsTheDecodedCommand : Obligations.StepRunsTheDecodedCommand := by
  refine ⟨fun s w i rest hb he hw => ?_, fun s i => ?_⟩
  · rw [step_command hb he, issue_command hw]
  · rw [State.withFetchWord_toNat, step_command rfl rfl, issue_command (decode_encode i)]
    rfl

/-! `STATUS` and reset (R23, R38) -/

/-- Settles O33: the values of `State.reset`. -/
theorem resetValues : Obligations.ResetValues :=
  ⟨rfl, rfl, rfl, rfl, rfl, rfl, rfl, rfl, rfl, rfl, rfl, rfl, rfl⟩

/-- Bit `i` of `STATUS`: the fields from `BUSY` upwards, each of its width (R23). -/
theorem Status.word_getLsbD (st : Status) (i : Nat) :
    st.word.getLsbD i =
      if i < 1 then (BitVec.ofBool st.busy).getLsbD i
      else if i - 1 < 1 then (BitVec.ofBool st.done).getLsbD (i - 1)
      else if i - 2 < 2 then false
      else if i - 4 < 4 then st.err.getLsbD (i - 4)
      else if i - 8 < 1 then (BitVec.ofBool st.edim).getLsbD (i - 8)
      else if i - 9 < 1 then (BitVec.ofBool st.eaddr).getLsbD (i - 9)
      else if i - 10 < 1 then (BitVec.ofBool st.eill).getLsbD (i - 10)
      else false := by
  change BitVec.getLsbD (w := 5 + 1 + 1 + 1 + 4 + 2 + 1 + 1) _ i = _
  rw [Status.word]
  simp only [BitVec.getLsbD_append, BitVec.getLsbD_zero]
  simp only [Nat.sub_sub, Nat.reduceAdd]

/-- Settles O34: every clause is read off `Status.word_getLsbD`. -/
theorem statusWordLayout : Obligations.StatusWordLayout := by
  intro st
  have herr : st.word.extractLsb' 4 4 = st.err := by
    refine BitVec.eq_of_getLsbD_eq fun i hi => ?_
    have : ¬ 4 + i < 1 ∧ ¬ 4 + i - 1 < 1 ∧ ¬ 4 + i - 2 < 2 := by omega
    simp [-BitVec.getLsbD_eq_getElem, BitVec.getLsbD_extractLsb', Status.word_getLsbD, this, hi]
  have hreserved : st.word.extractLsb' 11 5 = 0#5 := by
    refine BitVec.eq_of_getLsbD_eq fun i hi => ?_
    rw [BitVec.getLsbD_extractLsb', Status.word_getLsbD, if_neg (by omega), if_neg (by omega), if_neg (by omega),
      if_neg (by omega), if_neg (by omega), if_neg (by omega), if_neg (by omega)]
    simp
  refine ⟨?_, ?_, ?_, ?_, herr, ?_, ?_, ?_, hreserved⟩ <;> simp [-BitVec.getLsbD_eq_getElem, Status.word_getLsbD]

/-! Registers (R21 to R28) -/

/-- Settles O35, register by register. -/
theorem registerReadsReturnAndChangeNothing : Obligations.RegisterReadsReturnAndChangeNothing := by
  intro s n rest hb he
  refine ⟨s.readRegister n, step_move hb he, ?_⟩
  have hcsum : (csumWord s.csacc).toNat = (256 - s.csacc.toNat) % 256 := by
    have := s.csacc.isLt
    rw [csumWord_eq, BitVec.toNat_setWidth, ckOfAcc_toNat]; omega
  refine ⟨?_, ?_, ?_, ?_, ?_, ?_, ?_⟩
  case refine_6 => rintro rfl; exact hcsum
  case refine_7 => rintro (rfl | rfl) <;> rfl
  all_goals rintro rfl; rfl

/-- The write of a register that is not `CMD` on an idle core (R21). -/
theorem step_writeReg {s : State} {n : BitVec 3} {v : Word} {rest : List Event} (hb : s.status.busy = false)
    (he : s.events = .move (.writeReg n v) :: rest) (hn : n ≠ 0#3) :
    step s = .next (State.writeRegister { s with events := rest } n v) := by
  rw [step_move hb he, hostMove, if_neg hn]

/-- Settles O36, register by register. -/
theorem registerWritesTakeOrAreIgnored : Obligations.RegisterWritesTakeOrAreIgnored := by
  intro s n v rest hb he hn
  rw [step_writeReg hb he hn]
  rcases regNumber_cases n with rfl | rfl | rfl | rfl | rfl | rfl | rfl | rfl
  case inl => exact absurd rfl hn
  all_goals rfl

/-- Settles O37. -/
theorem reservedRegistersReadZeroAndIgnoreWrites : Obligations.ReservedRegistersReadZeroAndIgnoreWrites := by
  rintro s n v rest (rfl | rfl) hb <;>
    exact ⟨fun he => step_move hb he, fun he => step_writeReg hb he (by decide)⟩

/-! Elements (R29 to R32, R50, R51) -/

/-- Settles O39: the port ignores the write, and its index is the linear index of R51. -/
theorem readOnlySpacesIgnoreWritesAndRead : Obligations.ReadOnlySpacesIgnoreWritesAndRead := by
  intro s i k r c v rest hb
  exact ⟨fun he => step_move hb he, fun he => step_move hb he, fun he => step_move hb he, fun he => step_move hb he⟩

/-- Two places of the grid with one linear index are one place (R51). -/
theorem gridIndex_inj {c c' r r' : Nat} (hc : c < 128) (hc' : c' < 128) :
    gridIndex c' r' = gridIndex c r ↔ c' = c ∧ r' = r := by
  rw [gridIndex_eq, gridIndex_eq]; omega

/-- An element of `PIX` after a write of one (R59, R62). -/
theorem State.pixel_writePix (s : State) {c r x y : Nat} (v : Pixel) (hc : c < 128) (hx : x < 128) :
    State.pixel { s with pix := s.pix.write (gridIndex c r) v } x y = if x = c ∧ y = r then v else s.pixel x y := by
  unfold State.pixel
  rw [Memory.read_write]
  simp only [gridIndex_inj hc hx]

/-- An element of `PB` after a write of one (R59, R62). -/
theorem State.packed_writePb (s : State) (j x : Nat) (v : Byte) :
    State.packed { s with pb := s.pb.write j v } x = if x = j then v else s.packed x :=
  Memory.read_write s.pb j x v

/-- Two steps, one after the other. -/
theorem steps_two {s t u : State} (h : step s = .next t) (h' : step t = .next u) : steps 2 s = .next u := by
  rw [steps_succ_of_next 1 h, steps_succ_of_next 0 h', steps_zero]

section
variable {s : State} {rest : List Event}

theorem step_writePix {c : BitVec 7} {r : BitVec 6} {v : Pixel} (hb : s.status.busy = false)
    (he : s.events = .move (.writePix c r v) :: rest) :
    step s = .next { s with pix := s.pix.write (gridIndex c.toNat r.toNat) v, events := rest } := step_move hb he

theorem step_readPix {c : BitVec 7} {r : BitVec 6} (hb : s.status.busy = false)
    (he : s.events = .move (.readPix c r) :: rest) :
    step s = .next { s with events := rest, answers := .pixel (s.pixel c.toNat r.toNat) :: s.answers } :=
  step_move hb he

theorem step_writePb {j : BitVec 10} {v : Byte} (hb : s.status.busy = false)
    (he : s.events = .move (.writePb j v) :: rest) :
    step s = .next { s with pb := s.pb.write j.toNat v, events := rest } := step_move hb he

theorem step_readPb {j : BitVec 10} (hb : s.status.busy = false) (he : s.events = .move (.readPb j) :: rest) :
    step s = .next { s with events := rest, answers := .byte (s.packed j.toNat) :: s.answers } := step_move hb he

end

/-- Settles O38: the write steps to the memory with one element changed, and the read finds that memory. -/
theorem elementWriteIsReadBack : Obligations.ElementWriteIsReadBack := by
  refine ⟨fun s c c' r r' v rest hb he => ?_, fun s j j' v rest hb he => ?_, fun s c r rest hb he => step_readPix hb he,
    fun s j rest hb he => step_readPb hb he⟩
  · have hanswer := State.pixel_writePix s (r := r.toNat) (y := r'.toNat) v c.isLt c'.isLt
    refine ⟨_, steps_two (step_writePix hb he) (step_readPix hb rfl), ?_,
      fun x y hx _ => State.pixel_writePix s v c.isLt hx⟩
    simp only [BitVec.toNat_inj] at hanswer
    rw [← hanswer]
    rfl
  · have hanswer := State.packed_writePb s j.toNat j'.toNat v
    refine ⟨_, steps_two (step_writePb hb he) (step_readPb hb rfl), ?_, fun x _ => State.packed_writePb s j.toNat x v⟩
    simp only [BitVec.toNat_inj] at hanswer
    rw [← hanswer]
    rfl

/-! The preview (R32, R140) -/

/-- `UNPACKFN` gives black or white (R93, R140). -/
theorem previewPixel_black_or_white (P : Nat → Byte) (c r : Nat) :
    previewPixel P c r = 0x00#8 ∨ previewPixel P c r = 0xFF#8 := by
  rw [previewPixel_eq, previewOf_eq]
  exact ite_eq_or_eq _ _ _

/-- A command that ends in `unpackAll` without error leaves black and white only. -/
theorem State.preview_unpackAll_complete (s : State) {c r : Nat} (hc : c < 128) (hr : r < 64) :
    s.unpackAll.complete.preview c r = 0x00#8 ∨ s.unpackAll.complete.preview c r = 0xFF#8 := by
  rw [State.preview_complete, State.preview_unpackAll s hc hr]
  exact previewPixel_black_or_white _ c r

/-- An error entry leaves a code (R166, R170). -/
theorem State.raise_err_ne_zero (s : State) (e : ErrorKind) : (s.raise e).status.err ≠ 0#4 := e.code_ne_zero

/-- Settles O29: `UNPACK` and a `CONVERT` that raises nothing end by writing every element of `PV` with `UNPACKFN`. -/
theorem previewIsBlackOrWhite : Obligations.PreviewIsBlackOrWhite := by
  rintro i s t (rfl | rfl) ht herr c r hc hr
  · rw [exec_unpack] at ht
    exact Host.Outcome.next.inj ht ▸ s.preview_unpackAll_complete hc hr
  · rw [exec_convert] at ht
    obtain rfl := Host.Outcome.next.inj ht
    split at herr
    next hd =>
      split at herr
      next ha =>
        rw [if_pos hd, if_pos ha]
        exact State.preview_unpackAll_complete _ hc hr
      next => exact absurd herr (s.raise_err_ne_zero _)
    next => exact absurd herr (s.raise_err_ne_zero _)

end Sys2Proof.Machine
end

section
/-! SUPPORT. The write sets of the commands, taken whole (R50, R199): what none of them writes, when a sticky bit can be
new, and which of them write `CSACC`, `PB`, `OUT` and `PV`. -/

namespace Sys2Proof.Machine

variable {i : Instr} {s t : State}

/-- No command writes the configuration, the grid or the model's own fields, however it ends (R50, log 1, log 3,
log 4). -/
theorem exec_keeps_inputs (h : exec i s = .next t) :
    t.base = s.base ∧ t.dimw = s.dimw ∧ t.dimh = s.dimh ∧ t.pix = s.pix ∧
      t.fresh = s.fresh ∧ t.events = s.events ∧ t.answers = s.answers := by
  obtain ⟨e, rfl, -, -⟩ | ht := exec_cases h
  · exact ⟨rfl, rfl, rfl, rfl, rfl, rfl, rfl⟩
  · rw [ht]
    exact ⟨rfl, rfl, rfl, rfl, rfl, rfl, rfl⟩

/-- A raise sets `EDIM` with its own code only (R170). -/
theorem Status.raise_edim_new {st : Status} {e : ErrorKind} (h : (st.raise e).edim = true) :
    st.edim = true ∨ (st.raise e).err = 1#4 := by
  obtain hold | hnew := (Bool.or_eq_true _ _).mp h
  · exact .inl hold
  · exact .inr (congrArg ErrorKind.code (of_decide_eq_true hnew))

/-- A raise sets `EADDR` with its own code only (R170). -/
theorem Status.raise_eaddr_new {st : Status} {e : ErrorKind} (h : (st.raise e).eaddr = true) :
    st.eaddr = true ∨ (st.raise e).err = 2#4 := by
  obtain hold | hnew := (Bool.or_eq_true _ _).mp h
  · exact .inl hold
  · exact .inr (congrArg ErrorKind.code (of_decide_eq_true hnew))

/-- A completion keeps the sticky bits, and a command raises one of its two kinds, never `IllegalCommand` (R151,
R170). -/
theorem exec_sticky_bits (h : exec i s = .next t) :
    (t.status.edim = true → s.status.edim = true ∨ t.status.err = 1#4) ∧
      (t.status.eaddr = true → s.status.eaddr = true ∨ t.status.err = 2#4) ∧ t.status.eill = s.status.eill := by
  obtain ⟨e, rfl, -, he⟩ | ht := exec_cases h
  · have hkind : e ≠ .illegalCommand := by
      rintro rfl
      simp at he
    exact ⟨Status.raise_edim_new, Status.raise_eaddr_new, by simp [hkind]⟩
  · rw [ht]
    exact ⟨.inl, .inl, rfl⟩

/-- The outputs: each is written by its own commands only (R50, R199). A raise writes none of them. -/
theorem exec_writes_own_outputs (h : exec i s = .next t) :
    ((i ≠ .csclr ∧ ∀ v, i ≠ .csadd v) → t.csacc = s.csacc) ∧ ((i ≠ .pack ∧ i ≠ .convert) → t.pb = s.pb) ∧
      ((i ≠ .encode ∧ i ≠ .convert) → t.out = s.out) ∧ ((i ≠ .unpack ∧ i ≠ .convert) → t.pv = s.pv) := by
  cases i with
  | nop =>
    obtain rfl := Host.Outcome.next.inj (exec_nop s ▸ h)
    simp
  | csclr =>
    obtain rfl := Host.Outcome.next.inj (exec_csclr s ▸ h)
    simp
  | csadd v =>
    obtain rfl := Host.Outcome.next.inj (exec_csadd v s ▸ h)
    simp
  | unpack =>
    obtain rfl := Host.Outcome.next.inj (exec_unpack s ▸ h)
    simp
  | pack =>
    obtain rfl := Host.Outcome.next.inj (exec_pack s ▸ h)
    split <;> simp
  | encode =>
    obtain rfl := Host.Outcome.next.inj (exec_encode s ▸ h)
    split <;> simp
  | convert =>
    obtain rfl := Host.Outcome.next.inj (exec_convert s ▸ h)
    split
    · split <;> simp
    · simp

/-- Settles O20: the inputs are kept, the sticky bits follow the error code, and each output has its own commands. -/
theorem commandsWriteOnlyTheirOutputs : Obligations.CommandsWriteOnlyTheirOutputs := by
  intro i s t h
  obtain ⟨hbase, hdimw, hdimh, hpix, hfresh, hevents, hanswers⟩ := exec_keeps_inputs h
  obtain ⟨hedim, headdr, heill⟩ := exec_sticky_bits h
  exact ⟨hbase, hdimw, hdimh, hpix, hfresh, hevents, hanswers, hedim, headdr, heill, exec_writes_own_outputs h⟩

end Sys2Proof.Machine
end

section
/-! SUPPORT. Commands and their words (R75 to R80): a word decodes to a command exactly when it is that command's word,
so the decoder, the opcode table and the assembler are all read off the encoder. -/

namespace Sys2Proof.Machine

/-! The word of a command -/

/-- A format N word is the opcode with low byte 0 (R76, R77). -/
theorem encode_of_formatN {op : Byte} {i : Instr} (h : formatN op = some i) : encode i = op ++ 0x00#8 := by
  obtain ⟨rfl, rfl⟩ | ⟨rfl, rfl⟩ | ⟨rfl, rfl⟩ | ⟨rfl, rfl⟩ | ⟨rfl, rfl⟩ | ⟨rfl, rfl⟩ := formatN_eq_some h <;> rfl

/-- The number that the word of `CSADD` stands for (R81 "`0x0500 + v`"). -/
theorem encode_csadd_toNat (imm8 : Byte) : (encode (.csadd imm8)).toNat = 0x0500 + imm8.toNat := by
  rw [encode, BitVec.toNat_append, ← Nat.shiftLeft_add_eq_or_of_lt imm8.isLt]
  rfl

/-- A word that decodes to a command is the word of that command (R78, R79). -/
theorem encode_of_decode {w : Word} {i : Instr} (h : decode w = .command i) : encode i = w := by
  obtain ⟨h5, rfl⟩ | ⟨-, h0, hop⟩ := decode_command_cases h
  · rw [encode, ← h5, ← word_eq_append]
  · rw [encode_of_formatN hop, ← h0, ← word_eq_append]

theorem decode_eq_command_iff {w : Word} {i : Instr} : decode w = .command i ↔ encode i = w :=
  ⟨encode_of_decode, fun h => h ▸ decode_encode i⟩

/-- Words are told from their numbers. -/
theorem decode_of_toNat {w : Word} {i : Instr} (h : (encode i).toNat = w.toNat) : decode w = .command i :=
  decode_eq_command_iff.mpr (BitVec.eq_of_toNat_eq h)

theorem encode_injective : Function.Injective encode := fun i j h =>
  Decoded.command.inj (by rw [← decode_encode i, h, decode_encode])

/-- A word is rejected exactly when it is no command's word (R78, R79). -/
theorem decode_illegal_iff {w : Word} : (∃ e, decode w = .illegal e) ↔ ∀ i, encode i ≠ w := by
  simp only [ne_eq, ← decode_eq_command_iff]
  constructor
  · rintro ⟨e, he⟩ i hi
    cases he.symm.trans hi
  · exact fun h => (decode_illegal_or_command w).resolve_left fun ⟨i, hi⟩ => h i hi

/-- The number of a command's word: opcode 5 with any operand, or an opcode up to 6 with low byte 0 (R77). -/
theorem encode_toNat_cases (i : Instr) :
    (encode i).toNat / 256 = 5 ∨ ((encode i).toNat / 256 ≤ 6 ∧ (encode i).toNat % 256 = 0) := by
  cases i with
  | csadd imm8 =>
    have := imm8.isLt
    rw [encode_csadd_toNat]
    omega
  | _ => exact .inr (by decide)

/-- Settles O2, by `decode_encode` and `encode_of_decode`. -/
theorem decodeEncodeRoundTrip : Obligations.DecodeEncodeRoundTrip :=
  ⟨fun i _ => decode_encode i, fun _ _ => encode_of_decode⟩

/-- Settles O1: a legal clause names the number of a command's word, and an illegal one a number no such word has. -/
theorem decodeFollowsTheOpcodeMap : Obligations.DecodeFollowsTheOpcodeMap := by
  intro w
  refine ⟨fun hop => decode_of_toNat ?_, fun hop harg => decode_illegal_iff.mpr ?_, fun harg =>
    ⟨fun hop => decode_of_toNat ?_, fun hop => decode_of_toNat ?_, fun hop => decode_of_toNat ?_,
      fun hop => decode_of_toNat ?_, fun hop => decode_of_toNat ?_, fun hop => decode_of_toNat ?_,
      fun hop => decode_illegal_iff.mpr ?_⟩⟩
  case refine_1 =>
    rw [encode_csadd_toNat, BitVec.toNat_ofNat]
    omega
  case refine_2 | refine_9 =>
    rintro i rfl
    have := encode_toNat_cases i
    omega
  all_goals
    simp only [encode, BitVec.toNat_ofNat]
    omega

/-! The legal words (R78) -/

/-- The 262 commands: six of format N, and `CSADD` with each of the 256 operands (R77, R78). -/
def allCommands : List Instr :=
  [.nop, .pack, .encode, .unpack, .csclr, .convert] ++ (List.finRange 256).map fun n => .csadd (BitVec.ofFin n)

theorem length_allCommands : allCommands.length = 262 := by
  simp [allCommands]

theorem mem_allCommands (i : Instr) : i ∈ allCommands := by
  cases i with
  | csadd imm8 => exact List.mem_append_right _ (List.mem_map_of_mem (List.mem_finRange imm8.toFin))
  | _ => exact List.mem_append_left _ (by decide)

theorem nodup_allCommands : allCommands.Nodup := by
  have hcsadd : Function.Injective fun n : Fin 256 => Instr.csadd (BitVec.ofFin n) := fun _ _ h =>
    BitVec.ofFin.inj (Instr.csadd.inj h)
  refine List.nodup_append'.mpr ⟨by decide, (List.nodup_finRange 256).map hcsadd, ?_⟩
  simp

/-- Settles O3: the words of all commands. -/
theorem legalWordsAre262 : Obligations.LegalWordsAre262 := by
  refine ⟨allCommands.map encode, nodup_allCommands.map encode_injective, ?_, fun w => ?_⟩
  · rw [List.length_map, length_allCommands]
  · simp only [List.mem_map, mem_allCommands, true_and, decode_eq_command_iff]

/-! The opcode table (R77) -/

/-- The word of a command is of its own row only. -/
theorem encode_row (i : Instr) : Laws.TableRow.Statement i := by
  cases i with
  | nop => exact Laws.TableRow.nop
  | pack => exact Laws.TableRow.pack
  | encode => exact Laws.TableRow.encode
  | unpack => exact Laws.TableRow.unpack
  | csclr => exact Laws.TableRow.csclr
  | csadd imm8 => exact Laws.TableRow.csadd imm8
  | convert => exact Laws.TableRow.convert

theorem command_wf (i : Instr) : i.wf = true := by cases i <;> rfl

/-- A row that masks nothing out has one word. -/
theorem matchesWord_full_mask {m : String} {bits w : Word} :
    OpcodeRow.matchesWord ⟨m, bits, 0xFFFF#16⟩ w = true ↔ bits = w := by
  have : w &&& 0xFFFF#16 = w := BitVec.and_allOnes
  rw [OpcodeRow.matchesWord, beq_iff_eq, this, eq_comm]

/-- A row that keeps the high byte only is told by the opcode. -/
theorem opcodeOf_of_matchesWord {m : String} {bits w : Word}
    (h : OpcodeRow.matchesWord ⟨m, bits, 0xFF00#16⟩ w = true) : opcodeOf w = opcodeOf bits := by
  have hop : opcodeOf (w &&& 0xFF00#16) = opcodeOf w &&& 0xFF#8 := BitVec.extractLsb'_and
  have hbits : w &&& 0xFF00#16 = bits := beq_iff_eq.mp h
  rw [← hbits, hop]
  exact BitVec.and_allOnes.symm

/-- Every word of a row is a command's word. -/
theorem exists_encode_of_matchesWord {row : OpcodeRow} {w : Word} (hrow : row ∈ opcodeTable)
    (h : row.matchesWord w = true) : ∃ i, encode i = w := by
  simp only [opcodeTable, List.mem_cons, List.not_mem_nil, or_false] at hrow
  obtain rfl | rfl | rfl | rfl | rfl | rfl | rfl := hrow
  · exact ⟨.nop, matchesWord_full_mask.mp h⟩
  · exact ⟨.pack, matchesWord_full_mask.mp h⟩
  · exact ⟨.encode, matchesWord_full_mask.mp h⟩
  · exact ⟨.unpack, matchesWord_full_mask.mp h⟩
  · exact ⟨.csclr, matchesWord_full_mask.mp h⟩
  · have h5 : opcodeOf w = 0x05#8 := opcodeOf_of_matchesWord h
    exact ⟨.csadd (argOf w), by rw [encode, ← h5, ← word_eq_append]⟩
  · exact ⟨.convert, matchesWord_full_mask.mp h⟩

/-- Settles O4: a command's word is of its own row only, and every word of a row is a command's. -/
theorem decoderAgreesWithTheOpcodeTable : Obligations.DecoderAgreesWithTheOpcodeTable := by
  refine fun w => ⟨fun i hi => ?_, decode_illegal_iff.trans ⟨fun h row hrow => ?_, ?_⟩⟩
  · obtain ⟨row, hrow, hname, hmatch, hunique⟩ := encode_row i (command_wf i)
    rw [encode_of_decode hi] at hmatch hunique
    exact ⟨row, hrow, hmatch, hname, hunique⟩
  · refine Bool.eq_false_iff.mpr fun hmatch => ?_
    obtain ⟨i, hi⟩ := exists_encode_of_matchesWord hrow hmatch
    exact h i hi
  · rintro h i rfl
    obtain ⟨row, hrow, -, hmatch, -⟩ := encode_row i (command_wf i)
    exact Bool.false_ne_true ((h row hrow).symm.trans hmatch)

/-- Settles O5: each legal word is a command's own (`decode_encode`), and the two others are rejected by evaluation. -/
theorem wordsOfEveryFamilyDecode : Obligations.WordsOfEveryFamilyDecode :=
  ⟨decode_encode .nop, decode_encode .pack, decode_encode .encode, decode_encode .unpack, decode_encode .csclr,
    decode_encode (.csadd 0x71#8), decode_encode (.csadd 0xFF#8), decode_encode .convert, rfl, rfl⟩

/-! Assembler lines (R81) -/

/-- The word of `CSADD #v` for a byte value `v`. -/
theorem ofNat_csaddWord {v : Nat} (hv : v < 256) :
    BitVec.ofNat 16 (csaddWord v) = encode (.csadd (BitVec.ofNat 8 v)) := by
  apply BitVec.eq_of_toNat_eq
  rw [encode_csadd_toNat, csaddWord, BitVec.toNat_ofNat, BitVec.toNat_ofNat]
  omega

theorem ElementRef.pix_wf {c r : Nat} : (ElementRef.pix c r).wf = true ↔ c < 128 ∧ r < 64 := by
  rw [ElementRef.wf, Bool.and_eq_true, decide_eq_true_iff, decide_eq_true_iff, Config.width_eq, Config.height_eq]

theorem ElementRef.pb_wf {j : Nat} : (ElementRef.pb j).wf = true ↔ j < 1024 := by
  rw [ElementRef.wf, decide_eq_true_iff, Config.packedLen_eq]

theorem ElementRef.out_wf {i k : Nat} : (ElementRef.out i k).wf = true ↔ i < 64 ∧ k < 43 := by
  rw [ElementRef.wf, Bool.and_eq_true, decide_eq_true_iff, decide_eq_true_iff, Config.records_eq, Config.lineLen_eq]

theorem ElementRef.pv_wf {c r : Nat} : (ElementRef.pv c r).wf = true ↔ c < 128 ∧ r < 64 := ElementRef.pix_wf

theorem wrm_pix_wf {c r v : Nat} : (Line.wrm (.pix c r) v).wf = true ↔ (c < 128 ∧ r < 64) ∧ v < 16777216 := by
  rw [Line.wf, Bool.and_eq_true, ElementRef.pix_wf, ElementRef.space, MemSpace.storable, decide_eq_true_iff]

theorem wrm_pb_wf {j v : Nat} : (Line.wrm (.pb j) v).wf = true ↔ j < 1024 ∧ v < 256 := by
  rw [Line.wf, Bool.and_eq_true, ElementRef.pb_wf, ElementRef.space, MemSpace.storable, fitsByte, decide_eq_true_iff]

/-- `WR` and `RD` reach the register of the line's name, and `WR` keeps a value that fits (R21, R81). -/
theorem wr_rd_moves (r : RegName) {v : Nat} (hv : v < 65536) :
    (∃ w : Word, (Line.wr r v).moves = [.writeReg r.number w] ∧ w.toNat = v) ∧
      (Line.rd r).moves = [.readReg r.number] :=
  ⟨⟨_, rfl, Nat.mod_eq_of_lt hv⟩, rfl⟩

/-- `CSUM` is `CSCLR`, a `CSADD` for each value, and the read of the checksum (R81). -/
theorem csum_moves (vs : List Nat) : (Line.csum vs).moves
    = (Line.command .csclr).moves ++ vs.flatMap (fun v => (Line.csadd v).moves) ++ (Line.rd .csum).moves := by
  have hadds : vs.flatMap (fun v => (Line.csadd v).moves) = vs.map fun v => wrMove .cmd (csaddWord v) :=
    List.map_eq_flatMap.symm
  rw [hadds]
  rfl

theorem fill_pb_moves (v : Nat) : (Line.fill .pb v).moves
    = (List.range 1024).map fun a => .writePb (BitVec.ofNat 10 a) (BitVec.ofNat 8 v) := by
  rw [Line.moves, elementsOf, List.map_map, Config.packedLen_eq]
  rfl

theorem fill_pix_moves (v : Nat) : (Line.fill .pix v).moves = (List.range 8192).map fun a =>
    .writePix (BitVec.ofNat 7 (a % 128)) (BitVec.ofNat 6 (a / 128)) (BitVec.ofNat 24 v) := by
  rw [Line.moves, elementsOf, List.map_map, Config.gridLen_eq, Config.width_eq]
  rfl

/-- Settles O52: the moves of each line, a value and an index kept because the line's check says that they fit. -/
theorem assemblerLinesExpandToHostMoves : Obligations.AssemblerLinesExpandToHostMoves := by
  refine ⟨fun i => ⟨_, rfl, decode_encode i⟩, fun v hv => ⟨_, rfl, decode_eq_command_iff.mpr (ofNat_csaddWord hv).symm⟩,
    fun v hv x hx => ?_, csum_moves, fun _ => rfl, fun _ _ => rfl, fun c r v h => ?_, fun j v h => ?_, fun c r h => ?_,
    fun j h => ?_, fun i k h => ?_, fun c r h => ?_, fill_pb_moves, fill_pix_moves⟩
  · have hx : x.2 = x.1.number := by revert x; decide
    rw [hx]
    exact wr_rd_moves x.1 hv
  · obtain ⟨⟨hc, hr⟩, hv⟩ := wrm_pix_wf.mp h
    exact ⟨_, _, _, rfl, Nat.mod_eq_of_lt hc, Nat.mod_eq_of_lt hr, Nat.mod_eq_of_lt hv⟩
  · obtain ⟨hj, hv⟩ := wrm_pb_wf.mp h
    exact ⟨_, _, rfl, Nat.mod_eq_of_lt hj, Nat.mod_eq_of_lt hv⟩
  · obtain ⟨hc, hr⟩ := ElementRef.pix_wf.mp h
    exact ⟨_, _, rfl, Nat.mod_eq_of_lt hc, Nat.mod_eq_of_lt hr⟩
  · exact ⟨_, rfl, Nat.mod_eq_of_lt (ElementRef.pb_wf.mp h)⟩
  · obtain ⟨hi, hk⟩ := ElementRef.out_wf.mp h
    exact ⟨_, _, rfl, Nat.mod_eq_of_lt hi, Nat.mod_eq_of_lt (hk.trans (by decide))⟩
  · obtain ⟨hc, hr⟩ := ElementRef.pv_wf.mp h
    exact ⟨_, _, rfl, Nat.mod_eq_of_lt hc, Nat.mod_eq_of_lt hr⟩

end Sys2Proof.Machine
end

section
/-! SUPPORT. The checksum as a function of the byte sequence (R105 to R107): `CK` depends on the sum modulo 256 only, and
balances it. -/

namespace Sys2Proof.Machine

theorem sum_map_toNat (s : List Byte) : (s.map BitVec.toNat).sum = byteSum s := by
  induction s with
  | nil => rfl
  | cons v s ih => rw [List.map_cons, List.sum_cons, ih, byteSum_cons]

/-- A byte balances the sum exactly when it is `CK` (R105, R107 (b)). -/
theorem byteSum_add_mod_eq_zero_iff (s : List Byte) (c : Byte) : (byteSum s + c.toNat) % 256 = 0 ↔ c = ck s := by
  have hc := c.isLt
  rw [← BitVec.toNat_inj, ck_toNat]
  omega

/-- `CK` depends on the sum modulo 256 only (R107 (e)). -/
theorem ck_congr {s t : List Byte} (h : byteSum s % 256 = byteSum t % 256) : ck s = ck t := by
  rw [ck, h, ck]

/-- A sum that is a multiple of 256 has checksum 0: the outer `mod 256` turns 256 into 0 (R107 (c)). -/
theorem ck_eq_zero {s : List Byte} (h : byteSum s % 256 = 0) : ck s = 0x00#8 := ck_congr (t := []) h

/-- The record invariant (R107 (d)). -/
theorem ck_append_ck (s : List Byte) : ck (s ++ [ck s]) = 0x00#8 := by
  refine ck_eq_zero ?_
  rw [byteSum_append, byteSum_cons, byteSum_nil]
  exact (byteSum_add_mod_eq_zero_iff s (ck s)).mpr rfl

theorem ck_perm {s t : List Byte} (h : s.Perm t) : ck s = ck t := by
  refine ck_congr ?_
  rw [← sum_map_toNat, ← sum_map_toNat, (h.map BitVec.toNat).sum_eq]

/-- Bytes whose sum is a multiple of 256 may be inserted anywhere (R107 (e)). -/
theorem ck_insert {z : List Byte} (h : byteSum z % 256 = 0) (s t : List Byte) : ck (s ++ z ++ t) = ck (s ++ t) := by
  refine ck_congr ?_
  simp only [byteSum_append]
  omega

theorem ck_singleton_toNat (v : Byte) : (ck [v]).toNat = (256 - v.toNat) % 256 := by
  rw [ck_toNat, byteSum_cons, byteSum_nil, Nat.add_zero, Nat.mod_eq_of_lt v.isLt]

theorem ck_append_toNat (s t : List Byte) : (ck (s ++ t)).toNat = ((ck s).toNat + (ck t).toNat) % 256 := by
  simp only [ck_toNat, byteSum_append]
  omega

/-- The 8-bit accumulator started from 0 holds the sum modulo 256 (R106). -/
theorem foldl_accumulate_zero_toNat (s : List Byte) : (s.foldl accumulate 0x00#8).toNat = byteSum s % 256 := by
  rw [foldl_accumulate_toNat, BitVec.toNat_ofNat, Nat.zero_mod, Nat.zero_add]

/-- The checksum of the accumulator is its negation (R106). -/
theorem ckOfAcc_eq_neg (acc : Byte) : ckOfAcc acc = -acc := by
  apply BitVec.eq_of_toNat_eq
  rw [ckOfAcc_toNat, BitVec.toNat_neg]

/-- The checksum is read off the accumulator (R106). -/
theorem ckOfAcc_foldl (s : List Byte) : ckOfAcc (s.foldl accumulate 0x00#8) = ck s :=
  ckOfAcc_of_sum _ s (foldl_accumulate_zero_toNat s)

/-- Settles O21, by `ck_toNat` and `byteSum_add_mod_eq_zero_iff`. -/
theorem checksumIsTheOneBalancingByte : Obligations.ChecksumIsTheOneBalancingByte := by
  intro s
  rw [sum_map_toNat]
  exact ⟨ck_toNat s, byteSum_add_mod_eq_zero_iff s⟩

/-- Settles O22: the checksum is the accumulator's negation, which is its complement plus 1. -/
theorem accumulatorGivesTheChecksum : Obligations.AccumulatorGivesTheChecksum := by
  intro s
  rw [sum_map_toNat, ← ckOfAcc_foldl]
  exact ⟨foldl_accumulate_zero_toNat s, ckOfAcc_toNat _, (ckOfAcc_eq_neg _).trans (BitVec.neg_eq_not_add _)⟩

/-- Settles O23, law by law. -/
theorem checksumLaws : Obligations.ChecksumLaws := by
  unfold Obligations.ChecksumLaws
  simp only [sum_map_toNat]
  exact ⟨fun s => Nat.le_of_lt_succ (ck s).isLt, byteSum_add_mod_eq_zero_iff, rfl, fun _ => ck_eq_zero, ck_append_ck,
    fun _ _ => ck_congr, fun _ _ => ck_perm, fun s _ t h => ck_insert h s t, ck_singleton_toNat, ck_append_toNat⟩

end Sys2Proof.Machine
end

section
/-! SUPPORT. The checksum commands and `CSUM` (R108 to R110): what one move of the host does to an idle core and its
accumulator, and a list of moves by induction. -/

namespace Sys2Proof.Machine

/-! `CSCLR` and `CSADD` -/

/-- Settles O11: `exec_csclr`; the checksum of accumulator 0 is 0. -/
theorem csclrBeginsAnEmptySequence : Obligations.CsclrBeginsAnEmptySequence := by
  have hread : csumWord 0x00#8 = 0x0000#16 := by decide
  exact ⟨decode_encode .csclr, fun s => ⟨_, exec_csclr s, rfl, hread⟩⟩

theorem decode_csadd_word (v : Byte) : decode (BitVec.ofNat 16 (0x0500 + v.toNat)) = .command (.csadd v) := by
  have hv := v.isLt
  refine decode_of_toNat ?_
  rw [encode_csadd_toNat, BitVec.toNat_ofNat]
  omega

/-- `CSADD`s one after the other accumulate their operands (R106, R109). -/
theorem execAll_csadd (vs : List Byte) (s : State) :
    ∃ t, execAll (vs.map .csadd) s = .next t ∧ t.csacc = vs.foldl accumulate s.csacc := by
  induction vs generalizing s with
  | nil => exact ⟨s, rfl, rfl⟩
  | cons v vs ih =>
    obtain ⟨t, ht, hacc⟩ := ih (State.complete { s with csacc := accumulate s.csacc v })
    exact ⟨t, ht, hacc⟩

/-- Settles O12: `exec_csadd`, and `execAll_csadd` on the four operands of the rule's example. -/
theorem csaddAppendsOneByte : Obligations.CsaddAppendsOneByte := by
  refine ⟨fun s v => ⟨decode_csadd_word v, exec_csadd v s⟩, fun s hs => ?_⟩
  obtain ⟨t, ht, hacc⟩ := execAll_csadd [0x10#8, 0x71#8, 0x40#8, 0x00#8] s
  have hC1 : t.csacc = 0xC1#8 := by
    rw [hacc, hs]
    decide
  refine ⟨t, ht, hC1, ?_⟩
  rw [readRegister_csum, hC1]
  decide

/-! A host move leaves an idle core idle -/

/-- A command ends idle and does not touch what is still to happen (R151, R170). -/
theorem exec_leaves_idle {i : Instr} {s t : State} (h : exec i s = .next t) :
    t.status.busy = false ∧ t.events = s.events := by
  obtain ⟨e, rfl, -, -⟩ | ht := exec_cases h
  · exact ⟨rfl, rfl⟩
  · rw [ht]
    exact ⟨rfl, rfl⟩

theorem issue_leaves_idle {w : Word} {s t : State} (h : issue w s = .next t) :
    t.status.busy = false ∧ t.events = s.events := by
  obtain ⟨i, hi⟩ | ⟨e, he⟩ := decode_illegal_or_command w
  · exact exec_leaves_idle (issue_command hi s ▸ h)
  · obtain rfl := Host.Outcome.next.inj (issue_illegal he s ▸ h)
    exact ⟨rfl, rfl⟩

/-- The write of a register that is not `CMD` (R21). -/
theorem writeRegister_keeps (s : State) (n : BitVec 3) (v : Word) : (s.writeRegister n v).status = s.status ∧
    (s.writeRegister n v).events = s.events ∧ (s.writeRegister n v).csacc = s.csacc := by
  unfold State.writeRegister
  split <;> exact ⟨rfl, rfl, rfl⟩

/-- The write of register `n`, `CMD` or another (R21, R22). -/
theorem hostMove_writeReg (n : BitVec 3) (w : Word) (s : State) :
    hostMove (.writeReg n w) s = if n = 0#3 then issue w s else .next (s.writeRegister n w) := rfl

theorem hostMove_leaves_idle {m : HostMove} {s t : State} (hb : s.status.busy = false) (h : hostMove m s = .next t) :
    t.status.busy = false ∧ t.events = s.events := by
  cases m with
  | writeReg n w =>
    rw [hostMove_writeReg] at h
    split at h
    · exact issue_leaves_idle h
    · obtain ⟨hstatus, hevents, -⟩ := writeRegister_keeps s n w
      obtain rfl := Host.Outcome.next.inj h
      exact ⟨hstatus ▸ hb, hevents⟩
  | reset =>
    obtain rfl := Host.Outcome.next.inj h
    exact ⟨rfl, rfl⟩
  | _ =>
    obtain rfl := Host.Outcome.next.inj h
    exact ⟨hb, rfl⟩

/-! What a host move does to the accumulator -/

/-- A move that goes on with the current checksum sequence: neither a reset nor the command `CSCLR` (R110). -/
def HostMove.keepsSequence (m : HostMove) : Prop :=
  m ≠ .reset ∧ ∀ w, m = .writeReg 0#3 w → decode w ≠ .command .csclr

theorem pushedBytes_csadd {w : Word} {v : Byte} (hw : decode w = .command (.csadd v)) (ms : List HostMove) :
    pushedBytes (.writeReg 0#3 w :: ms) = v :: pushedBytes ms := by
  simp [pushedBytes, hw]

theorem pushedBytes_other_word {w : Word} (hw : ∀ v, decode w ≠ .command (.csadd v)) (n : BitVec 3)
    (ms : List HostMove) : pushedBytes (.writeReg n w :: ms) = pushedBytes ms := by
  rw [pushedBytes]
  split
  next v hv => exact absurd hv (hw v)
  next => rfl

theorem pushedBytes_other_register {n : BitVec 3} (hn : n ≠ 0#3) (w : Word) (ms : List HostMove) :
    pushedBytes (.writeReg n w :: ms) = pushedBytes ms := by
  rw [pushedBytes]
  split
  next => exact if_neg hn
  next => rfl

/-- A command word other than `CSCLR`'s, and any illegal word, accumulates the byte it pushes (R109, R110). -/
theorem issue_csacc {w : Word} {s t : State} (hw : decode w ≠ .command .csclr) (h : issue w s = .next t) :
    t.csacc = (pushedBytes [.writeReg 0#3 w]).foldl accumulate s.csacc := by
  obtain ⟨i, hi⟩ | ⟨e, he⟩ := decode_illegal_or_command w
  · rw [issue_command hi] at h
    by_cases hadd : ∃ v, i = .csadd v
    · obtain ⟨v, rfl⟩ := hadd
      obtain rfl := Host.Outcome.next.inj (exec_csadd v s ▸ h)
      rw [pushedBytes_csadd hi]
      rfl
    · have hi' : i ≠ .csclr ∧ ∀ v, i ≠ .csadd v := ⟨fun hc => hw (hc ▸ hi), fun v hv => hadd ⟨v, hv⟩⟩
      obtain ⟨hacc, -⟩ := exec_writes_own_outputs h
      rw [pushedBytes_other_word (by simpa [hi] using hi'.2)]
      exact hacc hi'
  · obtain rfl := Host.Outcome.next.inj (issue_illegal he s ▸ h)
    rw [pushedBytes_other_word (by simp [he])]
    rfl

/-- Among the moves of the host only `CSADD` accumulates, `CSCLR` and reset aside (R110). -/
theorem hostMove_csacc {m : HostMove} {s t : State} (hm : m.keepsSequence) (h : hostMove m s = .next t) :
    t.csacc = (pushedBytes [m]).foldl accumulate s.csacc := by
  obtain ⟨hreset, hcsclr⟩ := hm
  cases m with
  | reset => exact absurd rfl hreset
  | writeReg n w =>
    rw [hostMove_writeReg] at h
    split at h
    next hn =>
      subst hn
      exact issue_csacc (hcsclr w rfl) h
    next hn =>
      obtain ⟨-, -, hacc⟩ := writeRegister_keeps s n w
      obtain rfl := Host.Outcome.next.inj h
      rw [pushedBytes_other_register hn]
      exact hacc
  | _ =>
    obtain rfl := Host.Outcome.next.inj h
    rfl

/-- The step of a move that keeps the sequence. -/
theorem step_keepsSequence {m : HostMove} {rest : List Event} {s : State} (hm : m.keepsSequence)
    (hb : s.status.busy = false) (he : s.events = .move m :: rest) :
    ∃ t, step s = .next t ∧ t.status.busy = false ∧ t.events = rest ∧
      t.csacc = (pushedBytes [m]).foldl accumulate s.csacc := by
  let u : State := { s with events := rest }
  obtain ⟨t, ht⟩ := hostMove_total m u
  obtain ⟨htb, hte⟩ := hostMove_leaves_idle (s := u) hb ht
  exact ⟨t, (step_move hb he).trans ht, htb, hte, hostMove_csacc (s := u) hm ht⟩

/-! Lists of moves -/

theorem pushedBytes_cons (m : HostMove) (ms : List HostMove) :
    pushedBytes (m :: ms) = pushedBytes [m] ++ pushedBytes ms := by
  cases m with
  | writeReg n w =>
    by_cases hadd : ∃ v, decode w = .command (.csadd v)
    · obtain ⟨v, hv⟩ := hadd
      by_cases hn : n = 0#3
      · subst hn
        rw [pushedBytes_csadd hv, pushedBytes_csadd hv]
        rfl
      · rw [pushedBytes_other_register hn, pushedBytes_other_register hn]
        rfl
    · rw [pushedBytes_other_word (not_exists.mp hadd), pushedBytes_other_word (not_exists.mp hadd)]
      rfl
  | _ => rfl

/-- A list of moves that keep the sequence runs to its end on an idle core, and accumulates the pushed bytes in
order. -/
theorem steps_moves {moves : List HostMove} {rest : List Event} {s : State} (hm : ∀ m ∈ moves, m.keepsSequence)
    (hb : s.status.busy = false) (he : s.events = moves.map .move ++ rest) :
    ∃ t, steps moves.length s = .next t ∧ t.status.busy = false ∧ t.events = rest ∧
      t.csacc = (pushedBytes moves).foldl accumulate s.csacc := by
  induction moves generalizing s with
  | nil => exact ⟨s, rfl, hb, he, rfl⟩
  | cons m ms ih =>
    obtain ⟨hhead, htail⟩ := List.forall_mem_cons.mp hm
    obtain ⟨u, hu, hub, hue, huacc⟩ := step_keepsSequence hhead hb he
    obtain ⟨t, ht, htb, hte, htacc⟩ := ih htail hub hue
    refine ⟨t, ?_, htb, hte, ?_⟩
    · rw [List.length_cons, steps_succ_of_next _ hu, ht]
    · rw [htacc, huacc, ← List.foldl_append, ← pushedBytes_cons]

/-- `CSUM` shows the checksum of the accumulated sequence, zero extended (R27, R110). -/
theorem csumWord_foldl_toNat (s : List Byte) : (csumWord (s.foldl accumulate 0x00#8)).toNat = (ck s).toNat := by
  rw [csumWord_eq, ckOfAcc_foldl, BitVec.toNat_setWidth_of_le (by decide)]

/-- The read of a register of an idle core (R21). -/
theorem step_readReg {s : State} {n : BitVec 3} {rest : List Event} (hb : s.status.busy = false)
    (he : s.events = .move (.readReg n) :: rest) :
    step s = .next { s with events := rest, answers := .reg (s.readRegister n) :: s.answers } := step_move hb he

/-- From an empty sequence the read of `CSUM` after the moves returns the checksum of the pushed bytes. -/
theorem steps_moves_readCsum {moves : List HostMove} {s : State} (hm : ∀ m ∈ moves, m.keepsSequence)
    (hb : s.status.busy = false) (hacc : s.csacc = 0x00#8)
    (he : s.events = moves.map .move ++ [.move (.readReg 5#3)]) :
    ∃ t v, steps (moves.length + 1) s = .next t ∧ t.answers.head? = some (.reg v) ∧
      v.toNat = (ck (pushedBytes moves)).toNat := by
  obtain ⟨u, hu, hub, hue, huacc⟩ := steps_moves hm hb he
  refine ⟨_, csumWord u.csacc, (steps_add 1 hu).trans (steps_succ_of_next 0 (step_readReg hub hue)), rfl, ?_⟩
  rw [huacc, hacc, csumWord_foldl_toNat]

/-- Settles O24: `CSCLR` and reset both leave an idle core with accumulator 0, and `steps_moves_readCsum` goes on from
there. -/
theorem csumReadsTheChecksumOfThePushedBytes : Obligations.CsumReadsTheChecksumOfThePushedBytes := by
  intro moves hm
  refine ⟨fun s hb he => ?_, steps_moves_readCsum hm rfl rfl rfl⟩
  have hclear := (step_command hb he).trans (issue_command (decode_encode .csclr) _)
  obtain ⟨t, v, ht, hv⟩ := steps_moves_readCsum (s := State.complete { s with
    csacc := 0x00#8, events := moves.map .move ++ [.move (.readReg 5#3)] }) hm rfl rfl rfl
  refine ⟨t, v, ?_, hv⟩
  rw [Nat.add_assoc, steps_add _ (steps_succ_of_next 0 hclear), ht]

end Sys2Proof.Machine
end

section
/-! SUPPORT. `PACK` (41_pack.md): the bits it writes to `PB` (R116), what the pattern of a grid fixes of them (R117), and
the run of its elementary steps (R120). -/

namespace Sys2Proof.Machine

/-! The two ways `PACK` ends (R118, R119) -/

/-- `DIMOK` compares both registers with the size of the grid (R118). -/
theorem State.dimOk_iff {s : State} : s.dimOk = true ↔ s.dimw = 128#16 ∧ s.dimh = 64#16 := by
  rw [State.dimOk_eq, Bool.and_eq_true, beq_iff_eq, beq_iff_eq]

theorem exec_pack_of_dimOk {s : State} (h : s.dimOk = true) : exec .pack s = .next s.packAll.complete := by
  rw [exec_pack, if_pos h]

theorem exec_pack_of_not_dimOk {s : State} (h : ¬ s.dimOk = true) :
    exec .pack s = .next (s.raise .invalidDimensions) := by
  rw [exec_pack, if_neg h]

/-- The fields of a state that the dimension check rejects (R170). -/
theorem State.raise_invalidDimensions (s : State) : s.raise .invalidDimensions = { s with
    status := { s.status with busy := false, done := true, err := 1#4, edim := true }
    seq := Seq.idle } := by
  simp [State.raise, Status.raise]

/-! The bits of `PB` (R115, R116) -/

theorem on_eq_false_iff {p : Pixel} : on p = false ↔ p = 0xFFFFFF#24 := by
  rw [on_eq, bne_eq_false_iff_eq]

theorem on_eq_true_iff {p : Pixel} : on p = true ↔ p ≠ 0xFFFFFF#24 := by
  rw [on_eq, bne_iff_ne]

/-- Bit `y` of `PB[j]` after `PACK`, by the index of the byte. -/
theorem State.packed_packAll_getLsbD (s : State) {j y : Nat} (hj : j < 1024) (hy : y < 8) :
    (s.packAll.packed j).getLsbD y = on (s.pixel (j % 128) (8 * (j / 128) + y)) := by
  rw [State.packed_packAll s hj, packByte_getLsbD _ _ hy]

theorem State.packAll_packedHoldsGridOf (s : State) : s.packAll.packedHoldsGridOf s := by
  intro b c y hb hc hy
  rw [← packedIndex_eq, State.packAll_bit s hb hc hy, Bool.eq_iff_iff, on_eq_true_iff, decide_eq_true_iff]

/-- Settles O13: `PACK` ends in `packAll` or in a raise, as `DIMOK` says. -/
theorem packPacksTheGridOrRejectsIt : Obligations.PackPacksTheGridOrRejectsIt := by
  refine ⟨decode_encode .pack, fun s hw hh => ?_, fun s hdim => ?_⟩
  · exact ⟨_, exec_pack_of_dimOk (State.dimOk_iff.mpr ⟨hw, hh⟩), s.packAll_packedHoldsGridOf, rfl⟩
  · rw [exec_pack_of_not_dimOk (mt State.dimOk_iff.mp hdim), State.raise_invalidDimensions]

/-! Bytes from patterns (R117) -/

/-- `PACK` depends on the grid through `ON` only, and on nothing that `PB` held (R117 (b), (c)). -/
theorem State.packed_packAll_congr {s s' : State}
    (h : ∀ c r, c < 128 → r < 64 → on (s.pixel c r) = on (s'.pixel c r)) {j : Nat} (hj : j < 1024) :
    s.packAll.packed j = s'.packAll.packed j :=
  byte_ext fun y hy => by
    rw [s.packed_packAll_getLsbD hj hy, s'.packed_packAll_getLsbD hj hy, h _ _ (by omega) (by omega)]

/-- Settles O25: equal patterns of pure white are equal patterns of `ON`. -/
theorem packDependsOnlyOnThePattern : Obligations.PackDependsOnlyOnThePattern := by
  intro s s' hw hh hw' hh' hpattern
  have hon : ∀ c r, c < 128 → r < 64 → on (s.pixel c r) = on (s'.pixel c r) := fun c r hc hr => by
    rw [Bool.eq_iff_iff, on_eq_true_iff, on_eq_true_iff, ne_eq, ne_eq, hpattern c r hc hr]
  exact ⟨_, _, exec_pack_of_dimOk (State.dimOk_iff.mpr ⟨hw, hh⟩), exec_pack_of_dimOk (State.dimOk_iff.mpr ⟨hw', hh'⟩),
    fun j hj => State.packed_packAll_congr hon hj⟩

section
variable {s : State} {j : Nat}

/-- The white grid packs to zeros (R117 (e)). -/
theorem State.packed_packAll_white (h : ∀ c r, c < 128 → r < 64 → s.pixel c r = 0xFFFFFF#24) (hj : j < 1024) :
    s.packAll.packed j = 0x00#8 :=
  byte_ext fun y hy => by
    rw [s.packed_packAll_getLsbD hj hy, on_eq_false_iff.mpr (h _ _ (by omega) (by omega)), BitVec.getLsbD_zero]

/-- A grid without a white pixel packs to ones (R117 (e)). -/
theorem State.packed_packAll_no_white (h : ∀ c r, c < 128 → r < 64 → s.pixel c r ≠ 0xFFFFFF#24) (hj : j < 1024) :
    s.packAll.packed j = 0xFF#8 :=
  byte_ext fun y hy => by
    have hones : (BitVec.allOnes 8).getLsbD y = true := by rw [BitVec.getLsbD_allOnes, decide_eq_true hy]
    rw [s.packed_packAll_getLsbD hj hy, on_eq_true_iff.mpr (h _ _ (by omega) (by omega))]
    exact hones.symm

/-- Bit `y` of a byte of value `2 ^ n`. -/
theorem getLsbD_ofNat_two_pow {n y : Nat} (hy : y < 8) : (BitVec.ofNat 8 (2 ^ n)).getLsbD y = decide (n = y) := by
  rw [BitVec.getLsbD_ofNat, decide_eq_true hy, Bool.true_and, Nat.testBit_two_pow]

/-- A grid with one pixel on packs to one bit (R117 (f)). -/
theorem State.packed_packAll_single {c₀ r₀ : Nat} (hc₀ : c₀ < 128)
    (h : ∀ c r, c < 128 → r < 64 → (s.pixel c r ≠ 0xFFFFFF#24 ↔ c = c₀ ∧ r = r₀)) (hj : j < 1024) :
    s.packAll.packed j = if j = c₀ + 128 * (r₀ / 8) then BitVec.ofNat 8 (2 ^ (r₀ % 8)) else 0x00#8 :=
  byte_ext fun y hy => by
    have hbit : on (s.pixel (j % 128) (8 * (j / 128) + y)) = decide (j % 128 = c₀ ∧ 8 * (j / 128) + y = r₀) := by
      rw [Bool.eq_iff_iff, on_eq_true_iff, decide_eq_true_iff, h _ _ (by omega) (by omega)]
    rw [s.packed_packAll_getLsbD hj hy, hbit]
    split
    next hbyte => rw [getLsbD_ofNat_two_pow hy, decide_eq_decide]; omega
    next hbyte => rw [BitVec.getLsbD_zero, decide_eq_false_iff_not]; omega

end

/-- Settles O26, a grid at a time. -/
theorem packOfUniformAndSinglePixelGrids : Obligations.PackOfUniformAndSinglePixelGrids := fun _ hw hh =>
  ⟨_, exec_pack_of_dimOk (State.dimOk_iff.mpr ⟨hw, hh⟩), fun h _ hj => State.packed_packAll_white h hj,
    fun h _ hj => State.packed_packAll_no_white h hj,
    fun _ _ hc₀ _ h _ hj => State.packed_packAll_single hc₀ h hj⟩

/-! The elementary steps (R120, R152) -/

/-- `PACK` begins with its dimension check (R120 phase 0, R156). -/
theorem firstPhase_pack : firstPhase (encode .pack) = .dims false := by
  rw [firstPhase, decode_encode]

/-- A command ends with the sequencer idle, by a raise or by a completion (R36, R151, R170). -/
theorem exec_leaves_sequencer_idle {i : Instr} {s t : State} (h : exec i s = .next t) : t.seq.phase = .idle := by
  obtain ⟨e, rfl, -, -⟩ | ht := exec_cases h
  · rfl
  · rw [ht]
    rfl

/-- `PACK` from its dimension check on, whatever `BUSY` and the counters say: the check rejects, or the clearing pass and
the scan follow (R120). -/
theorem pack_reaches {s : State} (he : s.events = []) (hm : s.pb.wf 1024) (hp : s.seq.phase = .dims false) :
    ∃ t, exec .pack s = .next t ∧ Reaches s t := by
  have hstep := dims_step he false hp
  split at hstep
  next hd =>
    have hpack := pack_steps (s := { s with seq := Seq.enter (.clear false) }) he hm false rfl
    exact ⟨_, exec_pack_of_dimOk hd, (Reaches.of_step hstep).trans hpack⟩
  next hd => exact ⟨_, exec_pack_of_not_dimOk hd, Reaches.of_step hstep⟩

/-- What `PACK` ends in does not depend on `BUSY` and the sequencer, which its end overwrites (R151, R170). -/
theorem exec_pack_accept (w : Word) (s : State) : exec .pack (s.accept w) = exec .pack s := by
  by_cases hd : s.dimOk = true
  · rw [exec_pack_of_dimOk (s := s.accept w) hd, exec_pack_of_dimOk hd]
    rfl
  · rw [exec_pack_of_not_dimOk (s := s.accept w) hd, exec_pack_of_not_dimOk hd]
    rfl

/-- Settles O48: the accepted `PACK` reaches its whole effect (`pack_reaches`), an idle core with no event left, and
stays there. -/
theorem packStepsReachTheWholeEffect : Obligations.PackStepsReachTheWholeEffect := by
  intro s hinv hb he
  obtain ⟨-, hpb, -, -⟩ := hinv.memories
  obtain ⟨t, hexec, hrun⟩ := pack_reaches (s := State.accept 0x0100#16 { s with events := [] }) rfl hpb
    firstPhase_pack
  obtain ⟨-, hevents⟩ := exec_leaves_idle hexec
  rw [← exec_pack_accept 0x0100#16, hexec]
  exact ((Reaches.of_step (accept_step hb he)).trans hrun).settled hevents (exec_leaves_sequencer_idle hexec)

end Sys2Proof.Machine
end

section
/-! SUPPORT. `ENCODE` (42_encode.md): its one address check (R127), the bytes of a record as the numbers of R89, the
lines of `OUT` written and read back (R92, R130), and the run of its elementary steps (R132). -/

namespace Sys2Proof.Machine

/-! The address check (R127) -/

theorem addrOk_iff {base : Word} : addrOk base = true ↔ base.toNat ≤ 0xFC0F := by
  rw [addrOk_eq, decide_eq_true_iff]

/-- Record 63 has the largest address, so its check is the check of all 64. -/
theorem addrOk_iff_recordAddress_le {base : Word} :
    addrOk base = true ↔ ∀ i, i < 64 → recordAddress base i ≤ 0xFFFF := by
  refine ⟨fun h i => recordAddress_le h, fun h => addrOk_iff.mpr ?_⟩
  have hlast := h 63 (by decide)
  rw [recordAddress_eq] at hlast
  omega

/-- Settles O30. -/
theorem addressCheckCoversEveryRecord : Obligations.AddressCheckCoversEveryRecord := fun _ =>
  ⟨addrOk_iff_recordAddress_le, addrOk_iff⟩

/-! The two ways `ENCODE` ends (R131) -/

theorem exec_encode_of_addrOk {s : State} (h : addrOk s.base = true) :
    exec .encode s = .next s.encodeAll.complete := by
  rw [exec_encode, if_pos h]

theorem exec_encode_of_not_addrOk {s : State} (h : ¬ addrOk s.base = true) :
    exec .encode s = .next (s.raise .addressOverflow) := by
  rw [exec_encode, if_neg h]

/-- The fields of a state that the address check rejects (R170). -/
theorem State.raise_addressOverflow (s : State) : s.raise .addressOverflow = { s with
    status := { s.status with busy := false, done := true, err := 2#4, eaddr := true }
    seq := Seq.idle } := by
  simp [State.raise, Status.raise]

/-- With `ERR = 0` the check was passed and all lines are written. -/
theorem encode_succeeds {s t : State} (h : exec .encode s = .next t) (herr : t.status.err = 0#4) :
    addrOk s.base = true ∧ t = s.encodeAll.complete := by
  by_cases ha : addrOk s.base = true
  · exact ⟨ha, Host.Outcome.next.inj (h.symm.trans (exec_encode_of_addrOk ha))⟩
  · obtain rfl := Host.Outcome.next.inj (h.symm.trans (exec_encode_of_not_addrOk ha))
    exact absurd herr (ErrorKind.code_ne_zero .addressOverflow)

/-! Digits (R90) -/

/-- The encoder's digits have the codes of R90. -/
theorem hexDigit_toNat {n : Nat} (h : n < 16) : (hexDigit n).toNat = digitCode n := by
  unfold hexDigit digitCode
  split <;> rw [BitVec.toNat_ofNat] <;> omega

theorem hexValue_hexDigit {n : Nat} (h : n < 16) : hexValue (hexDigit n) = n := by
  unfold hexValue
  rw [hexDigit_toNat h]
  unfold digitCode
  split_ifs <;> omega

/-- Every character of a line after the marker is a digit (R92, R130 (b)). -/
theorem hexValue_lineChar_lt (base : Word) (P : Nat → Byte) (i : Nat) {k : Nat} (h1 : 1 ≤ k) (hk : k < 43) :
    hexValue (lineChar base P i k) < 16 := by
  obtain ⟨n, hn, rfl | rfl⟩ : ∃ n, n < 21 ∧ (k = 1 + 2 * n ∨ k = 2 + 2 * n) :=
    ⟨(k - 1) / 2, by omega, by omega⟩
  · rw [lineChar_high _ _ _ hn, hexValue_hexDigit (by omega)]
    omega
  · rw [lineChar_low _ _ _ hn, hexValue_hexDigit (by omega)]
    omega

/-! The bytes of a record (R89) -/

theorem State.recordValue_data (s : State) (i : Nat) {m : Nat} (hm : m < 16) :
    s.recordValue i (4 + m) = (s.packed (16 * i + m)).toNat := by
  unfold State.recordValue
  rw [if_neg (by omega), if_neg (by omega), if_neg (by omega), if_neg (by omega), if_pos (by omega),
    Nat.add_sub_cancel_left]

section
variable {s : State} {i : Nat}

/-- The two address bytes hold the whole address, since it fits in 16 bits (R127, R130 (c)). -/
theorem recordBytes_address (ha : addrOk s.base = true) (hi : i < 64) :
    ((recordBytes s.base s.packed i).getD 1 0#8).toNat = recordAddress s.base i / 256 ∧
      ((recordBytes s.base s.packed i).getD 2 0#8).toNat = recordAddress s.base i % 256 := by
  have hle := recordAddress_le ha hi
  rw [recordBytes_getD_high, recordBytes_getD_low, BitVec.toNat_ofNat, BitVec.toNat_ofNat]
  omega

/-- The checksum value of R89 is the `CK` of the content bytes (R105, R128). -/
theorem ck_recordContent_toNat (ha : addrOk s.base = true) (hi : i < 64) :
    (ck (recordContent s.base s.packed i)).toNat = s.recordValue i 20 := by
  have hle := recordAddress_le ha hi
  have hhigh : recordAddress s.base i / 256 % 256 = recordAddress s.base i / 256 := Nat.mod_eq_of_lt (by omega)
  rw [ck_toNat, byteSum_recordContent, hhigh, ← sum_map_toNat, List.map_map, recordAddress_eq]
  rfl

/-- The encoder's bytes are the values of R89. -/
theorem recordBytes_getD_toNat (ha : addrOk s.base = true) (hi : i < 64) {n : Nat} (hn : n < 21) :
    ((recordBytes s.base s.packed i).getD n 0#8).toNat = s.recordValue i n := by
  obtain ⟨hhigh, hlow⟩ := recordBytes_address ha hi
  obtain rfl | rfl | rfl | rfl | ⟨m, hm, rfl⟩ | rfl :
      n = 0 ∨ n = 1 ∨ n = 2 ∨ n = 3 ∨ (∃ m, m < 16 ∧ n = 4 + m) ∨ n = 20 := by
    by_cases hdata : 4 ≤ n ∧ n < 20
    · exact .inr (.inr (.inr (.inr (.inl ⟨n - 4, by omega, by omega⟩))))
    · omega
  · rfl
  · exact hhigh
  · exact hlow
  · rfl
  · rw [recordBytes_getD_data _ _ _ hm, s.recordValue_data i hm]
  · rw [recordBytes_getD_checksum, ck_recordContent_toNat ha hi]

end

/-- The 21 bytes of a record sum to a multiple of 256 (R130 (g)). -/
theorem byteSum_recordBytes_mod (base : Word) (P : Nat → Byte) (i : Nat) :
    byteSum (recordBytes base P i) % 256 = 0 := by
  rw [recordBytes, byteSum_append, byteSum_cons, byteSum_nil, Nat.add_zero]
  exact (byteSum_add_mod_eq_zero_iff (recordContent base P i) _).mpr rfl

/-! The lines of `OUT` (R92, R131) -/

theorem State.encodeAll_outHoldsRecordsOf {s : State} (ha : addrOk s.base = true) :
    s.encodeAll.outHoldsRecordsOf s := by
  intro i hi
  refine ⟨s.outChar_encodeAll hi (by decide), fun n hn => ?_⟩
  have hbyte := ((recordBytes s.base s.packed i).getD n 0#8).isLt
  rw [s.outChar_encodeAll hi (by omega), s.outChar_encodeAll hi (by omega), lineChar_high _ _ _ hn,
    lineChar_low _ _ _ hn, hexDigit_toNat (by omega), hexDigit_toNat (by omega), recordBytes_getD_toNat ha hi hn]
  exact ⟨rfl, rfl⟩

/-- A byte is read back from its two digits (R130 (a)). -/
theorem State.lineByte_encodeAll (s : State) {i n : Nat} (hi : i < 64) (hn : n < 21) :
    s.encodeAll.lineByte i n = ((recordBytes s.base s.packed i).getD n 0#8).toNat := by
  have hbyte := ((recordBytes s.base s.packed i).getD n 0#8).isLt
  rw [State.lineByte, s.outChar_encodeAll hi (by omega), s.outChar_encodeAll hi (by omega), lineChar_high _ _ _ hn,
    lineChar_low _ _ _ hn, hexValue_hexDigit (by omega), hexValue_hexDigit (by omega)]
  exact Nat.div_add_mod _ 16

/-- The bytes read back from a line sum to the sum of its record. -/
theorem State.sum_lineByte_encodeAll (s : State) {i : Nat} (hi : i < 64) :
    ((List.range 21).map (s.encodeAll.lineByte i)).sum = byteSum (recordBytes s.base s.packed i) := by
  have hmap : (List.range 21).map (s.encodeAll.lineByte i) = (recordBytes s.base s.packed i).map BitVec.toNat := by
    refine List.ext_getElem (by simp) fun n hn hn' => ?_
    rw [List.length_map] at hn'
    rw [List.getElem_map, List.getElem_map, List.getElem_range, s.lineByte_encodeAll hi (by simpa using hn),
      List.getD_eq_getElem _ _ hn']
  rw [hmap, sum_map_toNat]

/-- Settles O14: `ENCODE` ends in `encodeAll` or in a raise, as `ADDROK` says. -/
theorem encodeWritesTheRecordsOrRejectsTheBase : Obligations.EncodeWritesTheRecordsOrRejectsTheBase := by
  refine ⟨decode_encode .encode, fun s hbase => ?_, fun s hbase => ?_⟩
  · have ha : addrOk s.base = true := addrOk_iff.mpr (by omega)
    exact ⟨_, exec_encode_of_addrOk ha, State.encodeAll_outHoldsRecordsOf ha, rfl⟩
  · have ha : ¬ addrOk s.base = true := mt addrOk_iff.mp (by omega)
    rw [exec_encode_of_not_addrOk ha, State.raise_addressOverflow]

/-- Settles O31: each line reads back to the 21 bytes of its record. -/
theorem encodedLinesReadBack : Obligations.EncodedLinesReadBack := by
  intro s t h herr i hi
  obtain ⟨ha, rfl⟩ := encode_succeeds h herr
  have hread : ∀ n, n < 21 → s.encodeAll.complete.lineByte i n =
      ((recordBytes s.base s.packed i).getD n 0#8).toNat := fun n => s.lineByte_encodeAll hi
  obtain ⟨hhigh, hlow⟩ := recordBytes_address ha hi
  refine ⟨s.outChar_encodeAll hi (by decide), fun k h1 hk => ?_, hread 0 (by decide), ?_, hread 3 (by decide),
    fun m hm => ?_, ?_⟩
  · rw [State.outChar_complete, s.outChar_encodeAll hi hk]
    exact hexValue_lineChar_lt _ _ _ h1 hk
  · rw [hread 1 (by decide), hread 2 (by decide), hhigh, hlow, ← recordAddress_eq]
    exact Nat.div_add_mod _ 256
  · rw [hread (4 + m) (by omega), recordBytes_getD_data _ _ _ hm]
  · exact (congrArg (· % 256) (s.sum_lineByte_encodeAll hi)).trans (byteSum_recordBytes_mod _ _ _)

/-- Settles O32, by `lineChar_congr`: the second encoding has the same base, so it succeeds too. -/
theorem lineDependsOnlyOnItsChunk : Obligations.LineDependsOnlyOnItsChunk := by
  intro s s' t t' i hi h h' herr hbase hchunk k hk
  obtain ⟨ha, rfl⟩ := encode_succeeds h herr
  obtain rfl := Host.Outcome.next.inj (h'.symm.trans (exec_encode_of_addrOk (hbase ▸ ha)))
  rw [State.outChar_complete, State.outChar_complete, s.outChar_encodeAll hi hk, s'.outChar_encodeAll hi hk, ← hbase,
    lineChar_congr hchunk]

/-! The elementary steps (R132, R152) -/

/-- What a command ends in does not depend on `BUSY` and the sequencer, which its end overwrites (R151, R170). -/
theorem exec_accept (i : Instr) (w : Word) (s : State) : exec i (s.accept w) = exec i s := by
  cases i <;> rfl

/-- An accepted command whose elementary steps reach its whole effect stays there (R152, R192). -/
theorem start_settles {s : State} {w : Word} {i : Instr} (hb : s.status.busy = false) (he : s.events = [.start w])
    (h : ∃ t, exec i (State.accept w { s with events := [] }) = .next t ∧
      Reaches (State.accept w { s with events := [] }) t) :
    ∃ n, ∀ m, n ≤ m → steps m s = exec i { s with events := [] } := by
  obtain ⟨t, hexec, hrun⟩ := h
  obtain ⟨-, hevents⟩ := exec_leaves_idle hexec
  rw [← exec_accept i w, hexec]
  exact ((Reaches.of_step (accept_step hb he)).trans hrun).settled hevents (exec_leaves_sequencer_idle hexec)

/-- `ENCODE` begins with its address check (R132 phase 0, R156). -/
theorem firstPhase_encode : firstPhase (encode .encode) = .addr false := by
  rw [firstPhase, decode_encode]

/-- `ENCODE` from its address check on, whatever `BUSY` and the counters say: the check rejects, or the 64 records
follow (R132). -/
theorem encode_reaches {s : State} (he : s.events = []) (hm : s.out.wf 2752) (hp : s.seq.phase = .addr false) :
    ∃ t, exec .encode s = .next t ∧ Reaches s t := by
  have hstep := addr_step he false hp
  split at hstep
  next ha =>
    have hrecords := encode_steps (s := s.startEncode false) he ha hm false rfl
    exact ⟨_, exec_encode_of_addrOk ha, (Reaches.of_step hstep).trans ⟨1408, hrecords⟩⟩
  next ha => exact ⟨_, exec_encode_of_not_addrOk ha, Reaches.of_step hstep⟩

/-- Settles O49, by `encode_reaches` from the accepted word. -/
theorem encodeStepsReachTheWholeEffect : Obligations.EncodeStepsReachTheWholeEffect := by
  intro s hinv hb he
  obtain ⟨-, -, hout, -⟩ := hinv.memories
  exact start_settles hb he (encode_reaches rfl hout firstPhase_encode)

end Sys2Proof.Machine
end

section
/-! SUPPORT. `UNPACK` (43_unpack.md): the preview it writes to `PV` (R140), that packing and reconstructing undo each
other (R141), and the run of its elementary steps (R143). -/

namespace Sys2Proof.Machine

/-! The preview of a buffer (R140, R142) -/

/-- `UNPACKFN` in the second form of R140: the bit read off the value of the byte. -/
theorem previewPixel_eq_div_mod (P : Nat → Byte) (c r : Nat) :
    previewPixel P c r = if (P (c + 128 * (r / 8))).toNat / 2 ^ (r % 8) % 2 = 1 then 0x00#8 else 0xFF#8 := by
  rw [previewPixel_eq, previewOf_eq, packedIndex_eq, rowBit_eq, ← BitVec.testBit_toNat,
    Nat.testBit_eq_decide_div_mod_eq]
  simp only [decide_eq_true_eq]

theorem State.unpackAll_previewHoldsBufferOf (s : State) : s.unpackAll.previewHoldsBufferOf s := fun c r hc hr => by
  rw [s.preview_unpackAll hc hr, previewPixel_eq_div_mod]

/-- Settles O15: `UNPACK` ends in `unpackAll` from every state. -/
theorem unpackReconstructsThePreview : Obligations.UnpackReconstructsThePreview :=
  ⟨decode_encode .unpack, fun s => ⟨_, exec_unpack s, s.unpackAll_previewHoldsBufferOf, rfl⟩⟩

/-! Packing and reconstructing (R141) -/

/-- The preview of a packed grid shows `ON` of each pixel (R141 (b)). -/
theorem State.previewPixel_packAll (s : State) {c r : Nat} (hc : c < 128) (hr : r < 64) :
    previewPixel s.packAll.packed c r = previewOf (on (s.pixel c r)) := by
  rw [previewPixel_eq, rowBit_eq, s.packAll_bit (by omega) hc (by omega), Nat.div_add_mod]

theorem previewOf_on (p : Pixel) : previewOf (on p) = if p = 0xFFFFFF#24 then 0xFF#8 else 0x00#8 := by
  by_cases hwhite : p = 0xFFFFFF#24
  · rw [on_eq_false_iff.mpr hwhite, if_pos hwhite]
    rfl
  · rw [on_eq_true_iff.mpr hwhite, if_neg hwhite]
    rfl

theorem execAll_pack_unpack {s : State} (h : s.dimOk = true) :
    execAll [.pack, .unpack] s = .next s.packAll.complete.unpackAll.complete := by
  simp only [execAll, exec_pack_of_dimOk h, exec_unpack]

/-- Settles O27: the bit that `PACK` writes for a pixel is the one `UNPACK` reads. -/
theorem packThenUnpackKeepsOnAndOff : Obligations.PackThenUnpackKeepsOnAndOff := by
  intro s hw hh
  refine ⟨_, execAll_pack_unpack (State.dimOk_iff.mpr ⟨hw, hh⟩), fun c r hc hr => ?_⟩
  rw [State.preview_complete, State.preview_unpackAll _ hc hr, State.packed_complete, s.previewPixel_packAll hc hr,
    previewOf_on]

/-- A pixel with one preview value in all three channels is on exactly when the value shows a set bit (R117 (g)). -/
theorem on_pixelOf_previewOf (bit : Bool) : on (pixelOf (previewOf bit) (previewOf bit) (previewOf bit)) = bit := by
  cases bit <;> rfl

/-- The preview value that stands for bit `y` of `P[j]` (R140). -/
theorem previewPixel_of_index (P : Nat → Byte) (j : Nat) {y : Nat} (hy : y < 8) :
    previewPixel P (j % 128) (8 * (j / 128) + y) = previewOf ((P j).getLsbD y) := by
  rw [previewPixel_eq, packedIndex_eq, rowBit_eq, Nat.mul_add_mod, Nat.mod_eq_of_lt hy,
    Nat.mul_add_div (by decide), Nat.div_eq_of_lt hy, Nat.add_zero, Nat.mod_add_div]

/-- A grid that holds the preview of `P` packs to `P` (R141 (c)). -/
theorem State.packed_packAll_of_preview {u : State} {P : Nat → Byte}
    (h : ∀ c r, c < 128 → r < 64 →
      u.pixel c r = pixelOf (previewPixel P c r) (previewPixel P c r) (previewPixel P c r))
    {j : Nat} (hj : j < 1024) : u.packAll.packed j = P j :=
  byte_ext fun y hy => by
    rw [u.packed_packAll_getLsbD hj hy, h _ _ (by omega) (by omega), previewPixel_of_index P j hy,
      on_pixelOf_previewOf]

/-- Settles O28: the preview of `UNPACK` is that of the buffer, which `packed_packAll_of_preview` packs back. -/
theorem previewPacksBackToTheBuffer : Obligations.PreviewPacksBackToTheBuffer := by
  intro s t u hunpack hw hh hgrid
  obtain rfl := Host.Outcome.next.inj (hunpack.symm.trans (exec_unpack s))
  refine ⟨_, exec_pack_of_dimOk (State.dimOk_iff.mpr ⟨hw, hh⟩), fun j hj => ?_⟩
  rw [State.packed_complete]
  refine State.packed_packAll_of_preview (fun c r hc hr => ?_) hj
  rw [hgrid c r hc hr, State.preview_complete, s.preview_unpackAll hc hr]

/-! The elementary steps (R143, R152) -/

/-- `UNPACK` begins with its scan, since it checks nothing (R143, R156). -/
theorem firstPhase_unpack : firstPhase (encode .unpack) = .rebuild false := by
  rw [firstPhase, decode_encode]

/-- Acceptance of `UNPACK` puts the sequencer at the first place of its scan (R36, R149). -/
theorem State.accept_unpack_seq (s : State) : (s.accept (encode .unpack)).seq = Seq.enter (.rebuild false) := by
  rw [State.accept, firstPhase_unpack]
  rfl

/-- Settles O50: the 8192 steps of the scan from the accepted word write `PV` as a whole. -/
theorem unpackStepsReachTheWholeEffect : Obligations.UnpackStepsReachTheWholeEffect := by
  intro s hinv hb he
  obtain ⟨-, -, -, hpv⟩ := hinv.memories
  exact start_settles hb he ⟨_, exec_unpack _, 8192, rebuild_steps rfl hpv false (State.accept_unpack_seq _)⟩

end Sys2Proof.Machine
end

section
/-! SUPPORT. The system (44_system.md): how every command ends and what the core refuses, `NOP` and illegal words, the
flow of `CONVERT`, and the runs of elementary steps that reach these ends. -/

namespace Sys2Proof.Machine

/-! How a command ends (R150, R151, R170) -/

/-- A command raises one of its two errors, or completes (R151, R166). -/
theorem exec_ends {i : Instr} {s t : State} (h : exec i s = .next t) :
    t = s.raise .invalidDimensions ∨ t = s.raise .addressOverflow ∨ ∃ u, t = State.complete u := by
  obtain ⟨e, rfl, -, ⟨rfl, -⟩ | ⟨rfl, -⟩⟩ | ht := exec_cases h
  · exact .inl rfl
  · exact .inr (.inl rfl)
  · exact .inr (.inr ⟨_, ht⟩)

/-- Settles O17: each of the three ends sets the flags so. -/
theorem everyCommandCompletes : Obligations.EveryCommandCompletes := by
  intro i s
  obtain ⟨t, ht⟩ := exec_total i s
  refine ⟨t, ht, ?_⟩
  obtain rfl | rfl | ⟨u, rfl⟩ := exec_ends ht
  · exact ⟨rfl, rfl, rfl, .inr (.inl rfl)⟩
  · exact ⟨rfl, rfl, rfl, .inr (.inr rfl)⟩
  · exact ⟨rfl, rfl, rfl, .inl rfl⟩

/-- Settles O18: a command with an error code has ended in a raise, which writes `STATUS` and the sequencer only. -/
theorem failedCommandChangesOnlyStatus : Obligations.FailedCommandChangesOnlyStatus := by
  intro i s t h herr
  obtain rfl | rfl | ⟨u, rfl⟩ := exec_ends h
  · exact ⟨rfl, .inl ⟨rfl, congrArg State.status s.raise_invalidDimensions⟩⟩
  · exact ⟨rfl, .inr ⟨rfl, congrArg State.status s.raise_addressOverflow⟩⟩
  · exact absurd rfl herr

/-! What the core refuses (R196, R197) -/

/-- The next event is the host touching a core with a command in execution, other than to read `STATUS` or to reset
it (R197). -/
def State.accessedWhileBusy (s : State) : Prop :=
  s.status.busy = true ∧
    ∃ e rest, s.events = e :: rest ∧ e ≠ .tick ∧ e ≠ .move .reset ∧ e ≠ .move (.readReg 1#3)

theorem State.accessedWhileBusy_cons_iff {s : State} {e : Event} {rest : List Event} (he : s.events = e :: rest) :
    s.accessedWhileBusy ↔
      s.status.busy = true ∧ e ≠ .tick ∧ e ≠ .move .reset ∧ e ≠ .move (.readReg 1#3) := by
  simp [State.accessedWhileBusy, he]

theorem State.not_accessedWhileBusy_nil {s : State} (he : s.events = []) : ¬ s.accessedWhileBusy := by
  simp [State.accessedWhileBusy, he]

/-- A step answers a next state, but for the accesses that R197 gives no meaning. -/
theorem step_cases (s : State) :
    (∃ t, step s = .next t) ∧ ¬ s.accessedWhileBusy ∨
      step s = .refused .accessWhileBusy ∧ s.accessedWhileBusy := by
  cases he : s.events with
  | nil => exact .inl ⟨step_nil he ▸ tick_total s, State.not_accessedWhileBusy_nil he⟩
  | cons e rest =>
    rw [State.accessedWhileBusy_cons_iff he]
    cases hb : s.status.busy with
    | false => exact .inl ⟨step_idle hb he ▸ idleEvent_total e _, by simp⟩
    | true =>
      rw [step_busy hb he]
      obtain ⟨rfl, h⟩ | ⟨rfl, h⟩ | ⟨rfl, h⟩ | ⟨htick, hreset, hread, h⟩ :=
        busyEvent_cases e { s with events := rest }
      · exact .inl ⟨tick_total _, by simp⟩
      · exact .inl ⟨⟨_, h⟩, by simp⟩
      · exact .inl ⟨⟨_, h⟩, by simp⟩
      · exact .inr ⟨h, rfl, htick, hreset, hread⟩

/-- Settles O9, by `step_cases`. -/
theorem onlyAccessWhileBusyIsRefused : Obligations.OnlyAccessWhileBusyIsRefused := by
  intro s
  obtain ⟨⟨t, ht⟩, hs⟩ | ⟨hr, hs⟩ := step_cases s
  · rw [ht]
    exact ⟨nofun, fun r => ⟨nofun, fun ⟨_, h⟩ => absurd h hs⟩⟩
  · rw [hr]
    exact ⟨nofun, fun r => ⟨fun h => ⟨(Host.Outcome.refused.inj h).symm, hs⟩, fun ⟨h, _⟩ => h ▸ rfl⟩⟩

/-! `NOP` and illegal words (R153, R154) -/

/-- `STATUS` as the host reads it tells all six fields (R23). -/
theorem Status.word_injective : Function.Injective Status.word := by
  intro st st' h
  obtain ⟨hbusy, hdone, -, -, herr, hedim, headdr, heill, -⟩ := statusWordLayout st
  obtain ⟨hbusy', hdone', -, -, herr', hedim', headdr', heill', -⟩ := statusWordLayout st'
  rw [h] at hbusy hdone herr hedim headdr heill
  cases st
  cases st'
  simp only [Status.mk.injEq]
  exact ⟨hbusy.symm.trans hbusy', hdone.symm.trans hdone', herr.symm.trans herr', hedim.symm.trans hedim',
    headdr.symm.trans headdr', heill.symm.trans heill'⟩

/-- Settles O10: `exec_nop`; the word of the example tells the fields that `NOP` starts from. -/
theorem nopCompletesAndDoesNothingElse : Obligations.NopCompletesAndDoesNothingElse := by
  refine ⟨decode_encode .nop, exec_nop, fun s hs => ⟨_, exec_nop s, ?_⟩⟩
  have hstatus : s.status = ⟨false, true, 1#4, true, false, false⟩ := Status.word_injective hs
  rw [State.complete_status, hstatus]
  rfl

/-- The fields of a state after an illegal word (R154). -/
theorem State.raise_illegalCommand (s : State) : s.raise .illegalCommand = { s with
    status := { s.status with busy := false, done := true, err := 4#4, eill := true }
    seq := Seq.idle } := by
  simp [State.raise, Status.raise]

/-- The write of an illegal word to an idle core (R154). -/
theorem step_illegal {s : State} {w : Word} {e : DecodeError} {rest : List Event} (hb : s.status.busy = false)
    (he : s.events = .move (.writeReg 0#3 w) :: rest) (hw : decode w = .illegal e) :
    step s = .next (State.raise { s with events := rest } .illegalCommand) := by
  rw [step_command hb he, issue_illegal hw]

/-- Settles O7: `step_illegal`; a `STATUS` that reads 0 is that of an idle core. -/
theorem illegalWordRaisesIllegalCommand : Obligations.IllegalWordRaisesIllegalCommand := by
  refine ⟨fun s w e rest hb he hw => ?_, ⟨.nonzeroOperand 0x01#8 0x01#8, by decide⟩,
    decode_encode (.csadd 0xFF#8), fun s rest hs he => ?_⟩
  · rw [step_illegal hb he hw, State.raise_illegalCommand]
  · have hstatus : s.status = Status.reset := Status.word_injective hs
    have hw : decode 0x0700#16 = .illegal (.unassignedOpcode 0x07#8) := by decide
    refine ⟨_, step_illegal (congrArg Status.busy hstatus) he hw, ?_⟩
    simp only [State.raise_status, hstatus]
    rfl

/-! `CONVERT` taken whole (R155) -/

section
variable {s : State}

theorem exec_convert_of_checks (hd : s.dimOk = true) (ha : addrOk s.base = true) :
    exec .convert s = .next s.packAll.encodeAll.unpackAll.complete := by
  rw [exec_convert, if_pos hd, if_pos ha]

theorem exec_convert_of_not_addrOk (hd : s.dimOk = true) (ha : ¬ addrOk s.base = true) :
    exec .convert s = .next (s.raise .addressOverflow) := by
  rw [exec_convert, if_pos hd, if_neg ha]

theorem exec_convert_of_not_dimOk (hd : ¬ s.dimOk = true) :
    exec .convert s = .next (s.raise .invalidDimensions) := by
  rw [exec_convert, if_neg hd]

theorem execAll_pack_encode_unpack (hd : s.dimOk = true) (ha : addrOk s.base = true) :
    execAll [.pack, .encode, .unpack] s = exec .convert s := by
  have hencode := exec_encode_of_addrOk (s := s.packAll.complete) ha
  simp only [execAll, exec_pack_of_dimOk hd, hencode, exec_unpack, exec_convert_of_checks hd ha]
  rfl

/-- The order of `ENCODE` and `UNPACK` does not matter: both read `PB`, and neither writes what the other reads (R131,
R142). -/
theorem execAll_pack_unpack_encode (hd : s.dimOk = true) (ha : addrOk s.base = true) :
    execAll [.pack, .unpack, .encode] s = exec .convert s := by
  have hencode := exec_encode_of_addrOk (s := s.packAll.complete.unpackAll.complete) ha
  simp only [execAll, exec_pack_of_dimOk hd, exec_unpack, hencode, exec_convert_of_checks hd ha]
  rfl

/-- With a bad base the three commands have written `PB` and `PV` when `ENCODE` raises. -/
theorem execAll_pack_unpack_encode_fails (hd : s.dimOk = true) (ha : ¬ addrOk s.base = true) :
    execAll [.pack, .unpack, .encode] s =
      .next (s.packAll.complete.unpackAll.complete.raise .addressOverflow) := by
  have hencode := exec_encode_of_not_addrOk (s := s.packAll.complete.unpackAll.complete) ha
  simp only [execAll, exec_pack_of_dimOk hd, exec_unpack, hencode]

end

/-- Settles O16, by the outcomes of the two checks. -/
theorem convertRunsTheWholeFlowOrWritesNothing : Obligations.ConvertRunsTheWholeFlowOrWritesNothing := by
  refine ⟨decode_encode .convert, fun s hw hh hbase => ?_, fun s hdim => ?_, fun s hw hh hbase => ?_⟩
  · have hd : s.dimOk = true := State.dimOk_iff.mpr ⟨hw, hh⟩
    have ha : addrOk s.base = true := addrOk_iff.mpr (by omega)
    exact ⟨⟨_, exec_convert_of_checks hd ha, s.packAll_packedHoldsGridOf,
      State.encodeAll_outHoldsRecordsOf (s := s.packAll) ha, s.packAll.encodeAll.unpackAll_previewHoldsBufferOf, rfl⟩,
      execAll_pack_encode_unpack hd ha, execAll_pack_unpack_encode hd ha⟩
  · rw [exec_convert_of_not_dimOk (mt State.dimOk_iff.mp hdim), State.raise_invalidDimensions]
  · have hd : s.dimOk = true := State.dimOk_iff.mpr ⟨hw, hh⟩
    have ha : ¬ addrOk s.base = true := mt addrOk_iff.mp (by omega)
    refine ⟨?_, _, execAll_pack_unpack_encode_fails hd ha, s.packAll_packedHoldsGridOf,
      s.packAll.unpackAll_previewHoldsBufferOf, rfl, rfl⟩
    rw [exec_convert_of_not_addrOk hd ha, State.raise_addressOverflow]

/-! `CONVERT` in elementary steps (R155, R152) -/

/-- `CONVERT` begins with its dimension check (R155, R156). -/
theorem firstPhase_convert : firstPhase (encode .convert) = .dims true := by
  rw [firstPhase, decode_encode]

section
variable {s : State} (he : s.events = []) (hpb : s.pb.wf 1024) (hout : s.out.wf 2752) (hpv : s.pv.wf 8192)
include he hpb hout hpv

/-- `CONVERT` after its checks: the clearing pass and the scan of `PACK`, the records, and the scan of `UNPACK`, each
from the state the one before it leaves. -/
theorem convert_loops_reach (ha : addrOk s.base = true) (hq : s.seq = Seq.enter (.clear true)) :
    Reaches s s.packAll.encodeAll.unpackAll.complete := by
  have hpack : Reaches s (s.packAll.startEncode true) := pack_steps he hpb true hq
  have hencode := encode_steps (s := s.packAll.startEncode true) he ha hout true rfl
  have hunpack := rebuild_steps (s := { (s.packAll.startEncode true).encodeAll with seq := Seq.enter (.rebuild true) })
    he hpv true rfl
  exact hpack.trans (.trans ⟨1408, hencode⟩ ⟨8192, hunpack⟩)

/-- `CONVERT` from its dimension check on: one of the two checks rejects, or the loops follow. -/
theorem convert_reaches (hp : s.seq.phase = .dims true) : ∃ t, exec .convert s = .next t ∧ Reaches s t := by
  have hdims := dims_step he true hp
  split at hdims
  next hd =>
    have haddr := addr_step (s := { s with seq := Seq.enter (.addr true) }) he true rfl
    split at haddr
    next ha =>
      have hloops := convert_loops_reach (s := { s with seq := Seq.enter (.clear true) }) he hpb hout hpv ha rfl
      exact ⟨_, exec_convert_of_checks hd ha, (Reaches.of_step hdims).trans ((Reaches.of_step haddr).trans hloops)⟩
    next ha => exact ⟨_, exec_convert_of_not_addrOk hd ha, (Reaches.of_step hdims).trans (Reaches.of_step haddr)⟩
  next hd => exact ⟨_, exec_convert_of_not_dimOk hd, Reaches.of_step hdims⟩

end

/-- Settles O51, by `convert_reaches` from the accepted word. -/
theorem convertStepsReachTheWholeEffect : Obligations.ConvertStepsReachTheWholeEffect := by
  intro s hinv hb he
  obtain ⟨-, hpb, hout, hpv⟩ := hinv.memories
  exact start_settles hb he (convert_reaches rfl hpb hout hpv firstPhase_convert)

/-! The commands without a loop in elementary steps (R149, R150, R154) -/

/-- A word whose first elementary step ends its execution settles there. -/
theorem start_settles_of_tick {s t : State} {w : Word} (hb : s.status.busy = false) (he : s.events = [.start w])
    (htick : tick (State.accept w { s with events := [] }) = .next t) (hevents : t.events = [])
    (hp : t.seq.phase = .idle) : ∃ n, ∀ m, n ≤ m → steps m s = .next t :=
  ((Reaches.of_step (accept_step hb he)).trans (.of_step ((step_nil rfl).trans htick))).settled hevents hp

section
variable {s : State} {w : Word}

theorem tick_accept_nop (hw : decode w = .command .nop) : tick (s.accept w) = .next s.complete := by
  rw [tick, State.accept_seq, firstPhase, hw]
  rfl

theorem tick_accept_csclr (hw : decode w = .command .csclr) :
    tick (s.accept w) = .next (State.complete { s with csacc := 0x00#8 }) := by
  rw [tick, State.accept_seq, firstPhase, hw]
  rfl

theorem tick_accept_csadd {v : Byte} (hw : decode w = .command (.csadd v)) :
    tick (s.accept w) = .next (State.complete { s with csacc := accumulate s.csacc v }) := by
  rw [tick, State.accept_seq, firstPhase, hw]
  rfl

theorem tick_accept_illegal {e : DecodeError} (hw : decode w = .illegal e) :
    tick (s.accept w) = .next (s.raise .illegalCommand) := by
  rw [tick, State.accept_seq, firstPhase, hw]
  rfl

end

/-- Settles O47: the step after acceptance is the whole effect. -/
theorem looplessCommandsReachTheirWholeEffect : Obligations.LooplessCommandsReachTheirWholeEffect := by
  intro s w hb he
  refine ⟨fun hw => ?_, fun hw => ?_, fun v hw => ?_, fun e hw => ?_⟩
  · exact start_settles_of_tick hb he (tick_accept_nop hw) rfl rfl
  · exact start_settles_of_tick hb he (tick_accept_csclr hw) rfl rfl
  · exact start_settles_of_tick hb he (tick_accept_csadd hw) rfl rfl
  · rw [← State.raise_illegalCommand { s with events := [] }]
    exact start_settles_of_tick hb he (tick_accept_illegal hw) rfl rfl

end Sys2Proof.Machine
end

section
/-! SUPPORT. Exceptions (60_exceptions.md): the error a command raises as a function of the state, what one step can make
of `STATUS`, and what the sticky bits tell. -/

namespace Sys2Proof.Machine

/-! A failed command issued again (R174) -/

/-- The error a command raises, if its checks reject the state; `CONVERT` checks the dimensions first (R118, R127,
R155). `exec_errorAt` says that `exec` raises it. -/
def errorAt (i : Instr) (s : State) : Option ErrorKind :=
  match i with
  | .pack => if s.dimOk = true then none else some .invalidDimensions
  | .encode => if addrOk s.base = true then none else some .addressOverflow
  | .convert =>
    if s.dimOk = true then (if addrOk s.base = true then none else some .addressOverflow)
    else some .invalidDimensions
  | _ => none

/-- A command raises the error of its checks, and completes when they find none (R151, R170). -/
theorem exec_errorAt (i : Instr) (s : State) :
    (∃ e, errorAt i s = some e ∧ exec i s = .next (s.raise e)) ∨
      (errorAt i s = none ∧ ∃ u : State, exec i s = .next u.complete) := by
  cases i with
  | nop => exact .inr ⟨rfl, _, exec_nop s⟩
  | csclr => exact .inr ⟨rfl, _, exec_csclr s⟩
  | csadd v => exact .inr ⟨rfl, _, exec_csadd v s⟩
  | unpack => exact .inr ⟨rfl, _, exec_unpack s⟩
  | pack =>
    by_cases hd : s.dimOk = true
    · exact .inr ⟨if_pos hd, _, exec_pack_of_dimOk hd⟩
    · exact .inl ⟨_, if_neg hd, exec_pack_of_not_dimOk hd⟩
  | encode =>
    by_cases ha : addrOk s.base = true
    · exact .inr ⟨if_pos ha, _, exec_encode_of_addrOk ha⟩
    · exact .inl ⟨_, if_neg ha, exec_encode_of_not_addrOk ha⟩
  | convert =>
    by_cases hd : s.dimOk = true
    · by_cases ha : addrOk s.base = true
      · exact .inr ⟨(if_pos hd).trans (if_pos ha), _, exec_convert_of_checks hd ha⟩
      · exact .inl ⟨_, (if_pos hd).trans (if_neg ha), exec_convert_of_not_addrOk hd ha⟩
    · exact .inl ⟨_, if_neg hd, exec_convert_of_not_dimOk hd⟩

theorem exec_of_errorAt {i : Instr} {s : State} {e : ErrorKind} (h : errorAt i s = some e) :
    exec i s = .next (s.raise e) := by
  obtain ⟨e', he', hexec⟩ | ⟨hnone, -⟩ := exec_errorAt i s
  · rwa [Option.some.inj (h.symm.trans he')]
  · simp [h] at hnone

/-- A command that ended with an error code has raised the error of its checks. -/
theorem errorAt_of_exec {i : Instr} {s t : State} (h : exec i s = .next t) (herr : t.status.err ≠ 0#4) :
    ∃ e, errorAt i s = some e ∧ t = s.raise e := by
  obtain ⟨e, he, hexec⟩ | ⟨-, u, hexec⟩ := exec_errorAt i s
  · exact ⟨e, he, Host.Outcome.next.inj (h.symm.trans hexec)⟩
  · obtain rfl := Host.Outcome.next.inj (h.symm.trans hexec)
    exact absurd rfl herr

/-- The checks read the configuration, which a raise leaves alone (R170). -/
theorem errorAt_raise (i : Instr) (s : State) (e : ErrorKind) : errorAt i (s.raise e) = errorAt i s := by
  cases i <;> rfl

/-- A second raise of the same error finds its flags set and the sequencer idle (R170). -/
theorem State.raise_raise (s : State) (e : ErrorKind) : (s.raise e).raise e = s.raise e := by
  simp [State.raise, Status.raise]

/-- Settles O19: the checks that rejected `s` reject `s.raise e`, and the second raise changes nothing. -/
theorem failureRecursUntilTheInputIsFixed : Obligations.FailureRecursUntilTheInputIsFixed := by
  intro i s t h herr
  obtain ⟨e, he, rfl⟩ := errorAt_of_exec h herr
  have hagain : errorAt i (s.raise e) = some e := (errorAt_raise i s e).trans he
  rw [exec_of_errorAt hagain, State.raise_raise]

/-! What one step can make of `STATUS` (R149, R151, R170) -/

/-- What becomes of `STATUS` in a step other than a reset: nothing, acceptance, completion or a raise. -/
inductive Status.Becomes (st : Status) : Status → Prop where
  | same : Becomes st st
  | accept : Becomes st st.accept
  | complete : Becomes st st.complete
  | raise (e : ErrorKind) : Becomes st (st.raise e)

/-- None of these clears `DONE` or a sticky bit (R151, R171). -/
theorem Status.Becomes.keeps_done_and_sticky_bits {st st' : Status} (h : st.Becomes st') :
    (st.done = true → st'.done = true) ∧ (st.edim = true → st'.edim = true) ∧
      (st.eaddr = true → st'.eaddr = true) ∧ (st.eill = true → st'.eill = true) := by
  cases h with
  | same => exact ⟨id, id, id, id⟩
  | accept => exact ⟨id, id, id, id⟩
  | complete => exact ⟨fun _ => rfl, id, id, id⟩
  | raise e => simp +contextual

section
variable {s t : State}

theorem tick_becomes (h : tick s = .next t) : s.status.Becomes t.status := by
  obtain hst | hst | ⟨e, hst⟩ := tick_status h <;> rw [hst]
  · exact .same
  · exact .complete
  · exact .raise e

/-- A command taken whole ends in a completion or a raise (R151, R170). -/
theorem exec_status {i : Instr} (h : exec i s = .next t) :
    t.status = s.status.complete ∨ ∃ e, t.status = s.status.raise e := by
  obtain ⟨e, rfl, -, -⟩ | ht := exec_cases h
  · exact .inr ⟨e, rfl⟩
  · rw [ht]
    exact .inl rfl

/-- A command word, legal or not, ends in a completion or a raise (R150, R154). -/
theorem issue_status {w : Word} (h : issue w s = .next t) :
    t.status = s.status.complete ∨ ∃ e, t.status = s.status.raise e := by
  obtain ⟨i, hi⟩ | ⟨e, he⟩ := decode_illegal_or_command w
  · exact exec_status (issue_command hi s ▸ h)
  · obtain rfl := Host.Outcome.next.inj (issue_illegal he s ▸ h)
    exact .inr ⟨_, rfl⟩

theorem issue_becomes {w : Word} (h : issue w s = .next t) : s.status.Becomes t.status := by
  obtain hst | ⟨e, hst⟩ := issue_status h <;> rw [hst]
  · exact .complete
  · exact .raise e

theorem hostMove_becomes {m : HostMove} (hm : m ≠ .reset) (h : hostMove m s = .next t) :
    s.status.Becomes t.status := by
  cases m with
  | reset => exact absurd rfl hm
  | writeReg n w =>
    rw [hostMove_writeReg] at h
    split at h
    · exact issue_becomes h
    · obtain ⟨hstatus, -, -⟩ := writeRegister_keeps s n w
      obtain rfl := Host.Outcome.next.inj h
      exact hstatus ▸ .same
  | _ =>
    obtain rfl := Host.Outcome.next.inj h
    exact .same

theorem idleEvent_becomes {e : Event} (he : e ≠ .move .reset) (h : idleEvent e s = .next t) :
    s.status.Becomes t.status := by
  cases e with
  | move m => exact hostMove_becomes (fun hm => he (congrArg Event.move hm)) h
  | start w =>
    obtain rfl := Host.Outcome.next.inj h
    exact .accept
  | tick => exact tick_becomes h

theorem busyEvent_becomes {e : Event} (he : e ≠ .move .reset) (h : busyEvent e s = .next t) :
    s.status.Becomes t.status := by
  obtain ⟨-, hev⟩ | ⟨hreset, -⟩ | ⟨-, hev⟩ | ⟨-, -, -, hev⟩ := busyEvent_cases e s
  · exact tick_becomes (hev ▸ h)
  · exact absurd hreset he
  · obtain rfl := Host.Outcome.next.inj (hev ▸ h)
    exact .same
  · rw [hev] at h
    cases h

theorem step_becomes (hreset : ∀ rest, s.events ≠ .move .reset :: rest) (h : step s = .next t) :
    s.status.Becomes t.status := by
  cases hevents : s.events with
  | nil => exact tick_becomes (step_nil hevents ▸ h)
  | cons e rest =>
    have he : e ≠ .move .reset := fun he => hreset rest (he ▸ hevents)
    cases hb : s.status.busy with
    | false => exact idleEvent_becomes (s := { s with events := rest }) he (step_idle hb hevents ▸ h)
    | true => exact busyEvent_becomes (s := { s with events := rest }) he (step_busy hb hevents ▸ h)

end

/-- Settles O43: nothing that a step other than a reset makes of `STATUS` clears one of the four bits. -/
theorem onlyResetClearsDoneAndTheStickyBits : Obligations.OnlyResetClearsDoneAndTheStickyBits :=
  fun _ _ h hreset => (step_becomes hreset h).keeps_done_and_sticky_bits

/-! What the sticky bits tell (R171, R204) -/

/-- A completion keeps the sticky bits (R151). -/
theorem State.noCommandFailed_of_complete {s t : State} (hs : s.noCommandFailed)
    (hst : t.status = s.status.complete) : t.noCommandFailed := by
  rw [State.noCommandFailed, hst]
  exact hs

/-- A raise sets the sticky bit of its kind (R170). -/
theorem State.not_noCommandFailed_of_raise {t : State} {st : Status} {e : ErrorKind}
    (hst : t.status = st.raise e) : ¬ t.noCommandFailed := by
  rw [State.noCommandFailed, hst]
  cases e <;> simp

/-- Settles O44: a completion keeps the bits clear and writes code 0, a raise sets one of them and writes its own
code. -/
theorem stickyBitsRecordEveryFailure : Obligations.StickyBitsRecordEveryFailure := by
  intro s t w rest hb he h hs
  obtain hst | ⟨e, hst⟩ := issue_status (step_command hb he ▸ h)
  · exact iff_of_true (State.noCommandFailed_of_complete (s := s) hs hst) (congrArg Status.err hst)
  · have herr : t.status.err ≠ 0#4 := hst ▸ e.code_ne_zero
    exact iff_of_false (State.not_noCommandFailed_of_raise hst) herr

end Sys2Proof.Machine
end

section
/-! SUPPORT. Reset and hazards (70_reset_and_hazards.md): a core left alone, a reset of an idle and of a running core, and
`STATUS` while a command runs. -/

namespace Sys2Proof.Machine

/-! The idle core (R192) -/

/-- Settles O8: `step_idle_nil`. -/
theorem idleCoreWaits : Obligations.IdleCoreWaits := fun _ => step_idle_nil

/-! Reset (R190, R191) -/

/-- A reset of an idle core keeps the four memories (R191). -/
theorem State.hostReset_of_idle {s : State} (hp : s.seq.phase = .idle) : s.hostReset = { State.reset with
    pix := s.pix
    pb := s.pb
    out := s.out
    pv := s.pv
    fresh := s.fresh + 1
    events := s.events
    answers := s.answers } := by
  simp only [State.hostReset, hp, Memory.afterReset_idle]

/-- A reset while a command runs leaves new contents in the four memories (R190, R38). -/
theorem State.hostReset_of_running {s : State} (hp : s.seq.phase ≠ .idle) : s.hostReset = { State.reset with
    pix := ⟨.unspecified .pix s.fresh, []⟩
    pb := ⟨.unspecified .pb s.fresh, []⟩
    out := ⟨.unspecified .out s.fresh, []⟩
    pv := ⟨.unspecified .pv s.fresh, []⟩
    fresh := s.fresh + 1
    events := s.events
    answers := s.answers } := by
  simp only [State.hostReset, Memory.afterReset_running _ _ _ hp]

/-- Settles O40: `step_reset`, and the memories of an idle core. -/
theorem resetWhileIdleKeepsTheMemories : Obligations.ResetWhileIdleKeepsTheMemories := by
  intro s rest hp he
  rw [step_reset he, State.hostReset_of_idle (s := { s with events := rest }) hp]

/-- Settles O41: `step_reset`, and the memories of a running core. -/
theorem resetWhileRunningAbandonsTheCommand : Obligations.ResetWhileRunningAbandonsTheCommand := by
  intro s rest hp he
  rw [step_reset he, State.hostReset_of_running (s := { s with events := rest }) hp]

/-! `STATUS` while a command runs (R149, R196) -/

/-- The host's read of `STATUS` is the one read that a running core answers (R196). -/
theorem step_readStatus_of_busy {s : State} {rest : List Event} (hb : s.status.busy = true)
    (he : s.events = .move (.readReg 1#3) :: rest) :
    step s = .next { s with events := rest, answers := .reg s.status.word :: s.answers } := by
  rw [step_busy hb he]
  rfl

/-- A running core takes an elementary step when nothing is left to happen or a tick is next. -/
theorem step_elementary_of_busy {s : State} (hb : s.status.busy = true)
    (he : s.events = [] ∨ ∃ rest, s.events = .tick :: rest) :
    ∃ rest, step s = tick { s with events := rest } := by
  obtain he | ⟨rest, he⟩ := he
  · exact ⟨s.events, step_nil he⟩
  · exact ⟨rest, step_busy hb he⟩

/-- A completion and a raise clear `BUSY`, so an elementary step that leaves it set is neither (R151, R170). -/
theorem tick_status_of_busy {s t : State} (h : tick s = .next t) (hb : t.status.busy = true) :
    t.status = s.status := by
  obtain hst | hst | ⟨e, hst⟩ := tick_status h
  · exact hst
  · simp [hst] at hb
  · simp [hst] at hb

/-- Settles O42: acceptance, the read and the elementary step, each by its lemma; bit 0 is `BUSY` by the layout of
R23. -/
theorem statusReadWhileBusyShowsBusy : Obligations.StatusReadWhileBusyShowsBusy := by
  refine ⟨fun s w rest hb he => ⟨_, accept_step hb he, rfl, rfl⟩, fun s rest hb he => ?_, fun s t hb he h hbt => ?_⟩
  · obtain ⟨hbit, -⟩ := statusWordLayout s.status
    exact ⟨step_readStatus_of_busy hb he, hbit.trans hb⟩
  · obtain ⟨rest, htick⟩ := step_elementary_of_busy hb he
    exact tick_status_of_busy (s := { s with events := rest }) (htick ▸ h) hbt

end Sys2Proof.Machine
end
